-- ==== Sys2Proof/Word.lean ====
section
/-! DEFINITION. The bit-vector types of CANRB's ports and registers, and the frame record (00_scope R5, 10_state R20). -/

namespace Sys2Proof

/-- One byte of a frame's serialisation (R47). -/
abbrev Byte := BitVec 8

/-- The 88 bits of `din`, of `dout` and of one slot (R39, R45, R60). -/
abbrev Bus := BitVec 88

/-- The opcode `op[2:0]` (R39, R61). -/
abbrev Opcode := BitVec 3

/-- The 91-bit command word `W = din ++ op` (R60). -/
abbrev CommandWord := BitVec 91

/-- The 7 bits of `head`, `tail` and `count` (R24, R25, R26). -/
abbrev Index := BitVec 7

/-- A frame, the only data type that CANRB stores and moves (R20). All four fields are unsigned. -/
structure Frame where
  identifier : BitVec 16
  payload    : Vector Byte 8
  port       : BitVec 4
  length     : BitVec 4
  deriving DecidableEq, Repr

end Sys2Proof
end

