-- ==== Sys2Proof/Config.lean ====
section
/-! DEFINITION. The implementation parameters of 00_scope R5, at the values this hardware takes. No value of CANRB that
a command computes is left open by the spec, so there is no free value here. -/

namespace Sys2Proof

/-- The two settings of `reservedOp` (R5, R106, D5). -/
inductive ReservedOp where
  /-- Opcode `111` acts as a NOP: the hardware's behaviour. -/
  | nop
  /-- A model instance that refuses a run at opcode `111`. -/
  | refuse
  deriving DecidableEq, Repr

/-- `CAP`, the number of slots (R5, R23). It is not a power of two (R6). -/
abbrev Config.cap : Nat := 100

/-- `FRAME_BYTES`, the bytes of one frame (R5, R47). -/
abbrev Config.frameBytes : Nat := 11

/-- `CMD_W`, the bits of a command word (R5, R60). -/
abbrev Config.cmdWidth : Nat := 91

/-- `reservedOp` at the hardware's value (R5, D5). DESIGN CHOICE, safe: log entry 8. -/
def Config.reservedOp : ReservedOp := .nop

end Sys2Proof
end

