-- ==== Sys2Proof/Machine/State.lean ====
section
/-! DEFINITION. The state of CANRB as plain data (10_state R36), with the ports that a step reads and drives (R39), the
reasons a step can stop, and the state right after reset (R40). -/

namespace Sys2Proof.Machine

/-- The slot array (R23, R45) as cells of bytes: byte `k` of slot `i` is at address `11 * i + k` (log entry 6). -/
abbrev Memory := List Host.Cell

/-- How many byte addresses the slot array has: 100 slots of 11 bytes (R23, R46). -/
def Memory.size : Nat := Config.cap * Config.frameBytes

/-- What an address that the memory does not list reads as. The spec leaves the slots' contents unspecified (R40) and
allows zero (D14, 90_conflicts C4). DESIGN CHOICE, unsafe: log entry 7. -/
def Memory.unlisted : Byte := 0

/-- The canonical form from address `lo` up: addresses strictly rising, in the slot array, no cell equal to what an
unlisted address reads as. -/
def Memory.wfFrom (lo : Nat) : Memory → Bool
  | [] => true
  | (a, b) :: m => decide (lo ≤ a) && decide (a < Memory.size) && (b != Memory.unlisted) && Memory.wfFrom (a + 1) m

/-- The canonical form of a memory. -/
def Memory.wf (m : Memory) : Bool := Memory.wfFrom 0 m

/-- The inputs of one cycle, sampled at the rising edge that ends it (R9, R10, R39). -/
structure Cycle where
  rst : Bool
  op  : Opcode
  din : Bus
  deriving DecidableEq, Repr

/-- The state of CANRB. `mem`, `head`, `tail`, `count` and `dataLost` are the spec's architectural state (R36). The other
fields are the model's own: the ports, and whether a reset edge has happened. -/
structure State where
  /-- `Slot[0..99]` (R23). -/
  mem         : Memory
  /-- Index of the oldest unread frame (R24). -/
  head        : Index
  /-- Index where the next frame will be written (R25). -/
  tail        : Index
  /-- Number of stored frames (R26). -/
  count       : Index
  /-- The sticky loss flag `data_lost` (R27). -/
  dataLost    : Bool
  /-- Whether a rising edge with `rst = 1` has happened (R41, R131). DEDUCED, safe: log entry 4. -/
  constructed : Bool
  /-- The cycles that the host has yet to present, the next first (R10, R37). DESIGN CHOICE, safe: log entry 1. -/
  inputs      : List Cycle
  /-- The port `dout` in the cycle that the last step took (R39, R133). DESIGN CHOICE, safe: log entry 3. -/
  dout        : Bus
  /-- The port `rbit` in the cycle that the last step took (R39, R72). DESIGN CHOICE, safe: log entry 3. -/
  rbit        : Bool
  deriving DecidableEq, Repr

/-- Why a step stops with a fault. -/
inductive Fault where
  /-- Raised by every command but NOP in a state whose `head`, `tail` or `count` holds an encoding outside its range
  (R44, R119). Safe: no run from reset reaches such a state, and no value is computed from it. That it comes before the
  refusal of R131 is log entry 5, that opcode `111` is among those commands log entry 10. -/
  | registerEncoding
  deriving DecidableEq, Repr

/-- Why a step has no meaning. -/
inductive Refusal where
  /-- Raised by an arm of `exec` whose command has no meaning yet; none is left. Safe. -/
  | notModelled (mnemonic : String)
  /-- Raised by every command but NOP before the first reset edge (R41, R131). Safe: the spec asks a model to refuse. That opcode `111` is among those commands is log entry 10. -/
  | beforeFirstReset
  /-- Raised by opcode `111` in a model instance with `reservedOp = refuse` (R106); this hardware has `nop`, so no step
  raises it. Safe: log entries 8 and 12. -/
  | reservedOpcode
  /-- Raised by a step when the host has presented no further cycle: the run is over (R10). Safe: log entry 2. -/
  | endOfRun
  deriving DecidableEq, Repr

/-- The machine right after a rising edge with `rst = 1` (R40, R125, R128), with no further cycle presented. -/
def State.reset : State where
  mem         := []
  head        := 0
  tail        := 0
  count       := 0
  dataLost    := false
  constructed := true
  inputs      := []
  dout        := 0
  rbit        := false

end Sys2Proof.Machine
end

