-- ==== Sys2Proof/Machine/Flags.lean ====
section
/-! DEFINITION. The conditions that the queries answer and that set `data_lost` (R27, R31, R80, R81, R100). -/

namespace Sys2Proof.Machine

/-- The buffer is empty: `count == 0` (R31, R80). -/
def isEmpty (s : State) : Bool :=
  decide (s.count.toNat = 0)

/-- The buffer is full: `count == CAP` (R31, R81). -/
def isFull (s : State) : Bool :=
  decide (s.count.toNat = Config.cap)

/-- The loss flag (R100). -/
def isDataLost (s : State) : Bool :=
  s.dataLost

/-- `head`, `tail` and `count` hold encodings in their ranges (R29, R30, R44). -/
def registersLegal (s : State) : Bool :=
  decide (s.head.toNat < Config.cap) && decide (s.tail.toNat < Config.cap) && decide (s.count.toNat ≤ Config.cap)

end Sys2Proof.Machine
end

