-- ==== Sys2Proof/Syntax.lean ====
section
/-! DEFINITION. The commands of the one command port: one constructor per row of spec/opcode_table.json (30_encoding R61).
Reset is no command: the spec makes `construct()` the input `rst` (R61, R126), see Sys2Proof/Machine/Clock.lean. -/

namespace Sys2Proof

/-- A command of CANRB. Only PUSH has an operand, the frame to store (R63). -/
inductive Instr where
  /-- `000` NOP (R105). -/
  | nop
  /-- `001` PUSH, `push(frame)` (R85). -/
  | push (f : Frame)
  /-- `010` POP, `pop()` (R90). -/
  | pop
  /-- `011` CLRLOST, `clear_data_lost()` (R101). -/
  | clrlost
  /-- `100` QEMPTY, `is_empty()` (R80). -/
  | qempty
  /-- `101` QFULL, `is_full()` (R81). -/
  | qfull
  /-- `110` QLOST, `is_data_lost()` (R100). -/
  | qlost
  /-- `111`, the reserved opcode (R106). -/
  | reserved
  deriving DecidableEq, Repr

end Sys2Proof
end

