-- ==== Sys2Proof/WellFormed.lean ====
section
/-! DEFINITION. Which commands are well formed, and which of them the host may issue. -/

namespace Sys2Proof

/-- Every command is well formed: the fields of a frame take every value of their widths, so no `din` value is invalid
(R66), `length` is never checked against the payload (R22), and no command word is illegal (R62, R70). The widths
themselves are in the types of `Frame`. -/
def Instr.wf : Instr → Bool
  | .nop => true
  | .push _ => true
  | .pop => true
  | .clrlost => true
  | .qempty => true
  | .qfull => true
  | .qlost => true
  | .reserved => true

/-- The host's duty about commands: it must not issue the reserved opcode (R106, R138). The machine still gives that
opcode its behaviour; this predicate only says what a program owes. -/
def Instr.issuable : Instr → Bool
  | .nop => true
  | .push _ => true
  | .pop => true
  | .clrlost => true
  | .qempty => true
  | .qfull => true
  | .qlost => true
  | .reserved => false

end Sys2Proof
end

