-- ==== Sys2Proof/Decode.lean ====
section
/-! DEFINITION. The frame encoding (20_memory R47 to R49, 30_encoding R64 to R67) and the command encoding (R60 to R63):
the decoder, total on every word, and after it the encoder. -/

namespace Sys2Proof

/-- The frame on bus value `b`: `decode(b)` of R65. -/
def decodeFrame (b : Bus) : Frame where
  identifier := b.extractLsb' 0 16
  payload    := Vector.ofFn fun i => b.extractLsb' (16 + 8 * i.val) 8
  port       := b.extractLsb' 80 4
  length     := b.extractLsb' 84 4

/-- The bus form of a frame: `encode(frame)` of R64, in its one line. -/
def encodeFrame (f : Frame) : Bus :=
  f.length ++ f.port ++ f.payload[7] ++ f.payload[6] ++ f.payload[5] ++ f.payload[4] ++ f.payload[3] ++ f.payload[2] ++
    f.payload[1] ++ f.payload[0] ++ f.identifier

/-- Byte `k` of a bus value, its bits `[8k+7:8k]` (R64). -/
def busByte (b : Bus) (k : Nat) : Byte :=
  b.extractLsb' (8 * k) 8

/-- Byte 10 of the serialisation, `(length << 4) | port` (R49). -/
def packedByte (f : Frame) : Byte :=
  (f.length.zeroExtend 8 <<< 4) ||| f.port.zeroExtend 8

/-- The 11-byte serialisation of a frame, byte 0 first (R47, R48). -/
def serialise (f : Frame) : List Byte :=
  [f.identifier.extractLsb' 0 8, f.identifier.extractLsb' 8 8] ++ f.payload.toList ++ [packedByte f]

/-- The command that the ports `op` and `din` present in a cycle with `rst = 0`: `op` alone selects the row (R61, R62) and
only PUSH reads `din` (R63). -/
def decodePorts (op : Opcode) (din : Bus) : Instr :=
  match op with
  | 0b000#3 => .nop
  | 0b001#3 => .push (decodeFrame din)
  | 0b010#3 => .pop
  | 0b011#3 => .clrlost
  | 0b100#3 => .qempty
  | 0b101#3 => .qfull
  | 0b110#3 => .qlost
  | _       => .reserved

/-- `op` is `W[2:0]` (R60). -/
def wordOp (w : CommandWord) : Opcode :=
  w.extractLsb' 0 3

/-- `din` is `W[90:3]` (R60). -/
def wordDin (w : CommandWord) : Bus :=
  w.extractLsb' 3 88

/-- The command of a command word. Total: no command word is illegal (R62). -/
def decode (w : CommandWord) : Instr :=
  decodePorts (wordOp w) (wordDin w)

/-- Why a number is no command word. -/
inductive DecodeError where
  /-- It has a bit above bit 90, which neither port carries (R60). -/
  | tooWide
  deriving DecidableEq, Repr

/-- The command of a number read as a command word. A bit above `W[90]` belongs to no port and is rejected by name.
DESIGN CHOICE, safe: log entry 9. -/
def decodeNumber (n : Nat) : Except DecodeError Instr :=
  if n < 2 ^ Config.cmdWidth then .ok (decode (BitVec.ofNat 91 n)) else .error .tooWide

/-- The host's question about a row of spec/opcode_table.json: the command in the low `nbits` bits of `w`. -/
def decodeTableWord (nbits w : Nat) : Option Instr :=
  match decodeNumber (w % 2 ^ nbits) with
  | .ok i => some i
  | .error _ => none

/-- The opcode of a command (R61). -/
def Instr.opcode : Instr → Opcode
  | .nop => 0b000#3
  | .push _ => 0b001#3
  | .pop => 0b010#3
  | .clrlost => 0b011#3
  | .qempty => 0b100#3
  | .qfull => 0b101#3
  | .qlost => 0b110#3
  | .reserved => 0b111#3

/-- What the assembler writes on `din`: the frame of a PUSH, and 88 zero bits for every other command (R63). -/
def Instr.operand : Instr → Bus
  | .push f => encodeFrame f
  | .nop => 0
  | .pop => 0
  | .clrlost => 0
  | .qempty => 0
  | .qfull => 0
  | .qlost => 0
  | .reserved => 0

/-- The command word of a command, `W = din ++ op` (R60). -/
def encode (i : Instr) : CommandWord :=
  i.operand ++ i.opcode

end Sys2Proof
end

