-- ==== Sys2Proof/Machine/Operands.lean ====
section
/-! DEFINITION. The operand forms: the frame of a PUSH, the sentinel, and the slots that commands name through `tail` and
`head` (R23, R28, R33, R43, R63). -/

namespace Sys2Proof.Machine

/-- The sentinel `EMPTY`, a hardwired constant with every field zero (R28, D15). -/
def emptyFrame : Frame where
  identifier := 0
  payload    := Vector.replicate 8 0
  port       := 0
  length     := 0

/-- `next(i) = (i + 1) mod CAP`, a true modulo (R6, R43). -/
def nextIndex (i : Index) : Index :=
  BitVec.ofNat 7 ((i.toNat + 1) % Config.cap)

/-- The address of byte 0 of slot `i`; byte `k` follows at `k` above it (R46, log entry 6). -/
def slotAddress (i : Nat) : Nat :=
  Config.frameBytes * i

/-- The address of the slot that a PUSH writes, `Slot[tail]` (R85). -/
def pushAddress (s : State) : Nat :=
  slotAddress s.tail.toNat

/-- The index of occupied slot `k`, counted from the oldest (R33). -/
def occupiedIndex (s : State) (k : Nat) : Nat :=
  (s.head.toNat + k) % Config.cap

end Sys2Proof.Machine
end

