-- ==== Sys2Proof/Machine/Ops.lean ====
section
/-! DEFINITION. The named operations over the slot array and the registers. CANRB has no trap and no interrupt
(60_exceptions R110, R113, R114), so there is no operation that takes an exception and none that returns from one. -/

namespace Sys2Proof.Machine

/-- One byte of the slot array. -/
def Memory.read : Memory → Nat → Byte
  | [], _ => Memory.unlisted
  | (a, b) :: m, x => if a = x then b else Memory.read m x

/-- The cell for byte `b` at address `x`, or none where an unlisted address reads as `b` already. -/
def Memory.cell (x : Nat) (b : Byte) : Memory :=
  if b = Memory.unlisted then [] else [(x, b)]

/-- Write one byte, keeping the canonical form. -/
def Memory.write : Memory → Nat → Byte → Memory
  | [], x, b => Memory.cell x b
  | (a, v) :: m, x, b =>
    if x < a then Memory.cell x b ++ (a, v) :: m
    else if x = a then Memory.cell x b ++ m
    else (a, v) :: Memory.write m x b

/-- Write bytes at rising addresses from `x` on. -/
def Memory.writeBytes : Memory → Nat → List Byte → Memory
  | m, _, [] => m
  | m, x, b :: bs => Memory.writeBytes (Memory.write m x b) (x + 1) bs

/-- `Slot[i]`, all 88 bits (R8, R46): byte `k` of the slot is at bits `[8k+7:8k]` (R64). -/
def readSlot (m : Memory) (i : Nat) : Bus :=
  m.read (slotAddress i + 10) ++ m.read (slotAddress i + 9) ++ m.read (slotAddress i + 8) ++ m.read (slotAddress i + 7) ++
    m.read (slotAddress i + 6) ++ m.read (slotAddress i + 5) ++ m.read (slotAddress i + 4) ++ m.read (slotAddress i + 3) ++
    m.read (slotAddress i + 2) ++ m.read (slotAddress i + 1) ++ m.read (slotAddress i)

/-- The 11 bytes of a bus value, byte 0 first (R64). -/
def busBytes (b : Bus) : List Byte :=
  [busByte b 0, busByte b 1, busByte b 2, busByte b 3, busByte b 4, busByte b 5, busByte b 6, busByte b 7, busByte b 8,
    busByte b 9, busByte b 10]

/-- `Slot[i] <- b`, the whole slot (R8, R46). -/
def writeSlot (m : Memory) (i : Nat) (b : Bus) : Memory :=
  m.writeBytes (slotAddress i) (busBytes b)

/-- Drive the output ports in this cycle (R39, R92, R72). -/
def drive (d : Bus) (r : Bool) (s : State) : State :=
  { s with dout := d, rbit := r }

/-- The eviction of a PUSH on a full buffer: advance `head`, decrement `count`, set `data_lost` (R85, R115). -/
def evictOldest (s : State) : State :=
  { s with head := nextIndex s.head, count := s.count - 1, dataLost := true }

/-- The insertion of a PUSH: write `Slot[tail]`, advance `tail`, increment `count` (R85, R115). -/
def insertNewest (b : Bus) (s : State) : State :=
  { s with mem := writeSlot s.mem s.tail.toNat b, tail := nextIndex s.tail, count := s.count + 1 }

/-- The frame that a POP on a non-empty buffer reads, `Slot[head]` (R90). -/
def oldestFrame (s : State) : Bus :=
  readSlot s.mem s.head.toNat

/-- The removal of a POP on a non-empty buffer: advance `head`, decrement `count` (R90). No slot changes (R91). -/
def removeOldest (s : State) : State :=
  { s with head := nextIndex s.head, count := s.count - 1 }

/-- `data_lost <- 0` (R101). -/
def clearLost (s : State) : State :=
  { s with dataLost := false }

/-- The rising edge of a cycle with `rst = 1`: the registers take their reset values, the slots are not written and the
outputs are zero (R40, R125, R128). -/
def resetEdge (s : State) : State :=
  { s with head := 0, tail := 0, count := 0, dataLost := false, constructed := true, dout := 0, rbit := false }

/-- The edge of a command other than NOP in state `s` whose effect leads to `t`. A state with a register out of its range
faults (R44, R119), and before the first reset the run is refused (R41, R131). The fault is looked for first. DEDUCED,
safe: log entry 5, and log entry 10 for opcode `111`. -/
def commandEdge (s t : State) : Host.Outcome State Fault Refusal :=
  if registersLegal s then
    if s.constructed then .next t else .refused .beforeFirstReset
  else .fault .registerEncoding

end Sys2Proof.Machine
end

