-- ==== Sys2Proof/Machine/Control.lean ====
section
/-! DEFINITION. NOP and the reserved opcode (spec file 43_control). -/

namespace Sys2Proof.Machine

/-- NOP: both outputs zero, no state write, in every state, before the first reset too (R105, R131). -/
def execNop (s : State) : Host.Outcome State Fault Refusal :=
  .next (drive 0 false s)

/-- Opcode `111` under a value of the parameter `reservedOp` (R106, D5). With `refuse` the refusal is taken at once, in every
state: the spec gives no order between it and the stops of R119 and R131 in a state where both apply. DESIGN CHOICE, safe:
log entry 12; this hardware has `nop`. -/
def reservedUnder (p : ReservedOp) (s : State) : Host.Outcome State Fault Refusal :=
  match p with
  | .nop => commandEdge s (drive 0 false s)
  | .refuse => .refused .reservedOpcode

/-- Opcode `111` of this hardware: with `reservedOp = nop` it writes no state and both outputs are zero (R106). Before the
first reset it is refused, since only NOP may be presented then (R131), and with a register out of its range it faults (R119). DEDUCED, safe:
log entry 10. -/
def execReserved (s : State) : Host.Outcome State Fault Refusal :=
  reservedUnder Config.reservedOp s

end Sys2Proof.Machine
end

