-- ==== Sys2Proof/Machine/LossFlag.lean ====
section
/-! DEFINITION. The loss-flag commands QLOST and CLRLOST (spec file 42_loss_flag). -/

namespace Sys2Proof.Machine

/-- QLOST: `rbit` is the loss flag; reading does not clear it (R100). -/
def execQlost (s : State) : Host.Outcome State Fault Refusal :=
  commandEdge s (drive 0 (isDataLost s) s)

/-- CLRLOST: `data_lost <- 0`, unconditionally; both outputs are zero (R101). -/
def execClrlost (s : State) : Host.Outcome State Fault Refusal :=
  commandEdge s (drive 0 false (clearLost s))

end Sys2Proof.Machine
end

