-- ==== Sys2Proof/Machine/Queries.lean ====
section
/-! DEFINITION. The occupancy queries QEMPTY and QFULL (spec file 40_queries). -/

namespace Sys2Proof.Machine

/-- QEMPTY: `rbit` is 1 exactly when `count == 0`; no state write (R80). -/
def execQempty (s : State) : Host.Outcome State Fault Refusal :=
  commandEdge s (drive 0 (isEmpty s) s)

/-- QFULL: `rbit` is 1 exactly when `count == CAP`; no state write (R81). -/
def execQfull (s : State) : Host.Outcome State Fault Refusal :=
  commandEdge s (drive 0 (isFull s) s)

end Sys2Proof.Machine
end

