-- ==== Sys2Proof/Machine/Transfer.lean ====
section
/-! DEFINITION. The frame transfers PUSH and POP (spec file 41_transfer). -/

namespace Sys2Proof.Machine

/-- The state writes of a PUSH of the bus value `b`: on a full buffer the oldest frame is evicted first, and always the new
one is inserted (R85, R115). -/
def pushEffect (b : Bus) (s : State) : State :=
  insertNewest b (if isFull s then evictOldest s else s)

/-- PUSH: append the frame `f`; both outputs are zero (R85). -/
def execPush (f : Frame) (s : State) : Host.Outcome State Fault Refusal :=
  commandEdge s (drive 0 false (pushEffect (encodeFrame f) s))

/-- What a POP does: on an empty buffer it drives the sentinel and writes nothing, else it drives `Slot[head]` as it was
before the edge and removes that frame (R90). -/
def popEffect (s : State) : State :=
  if isEmpty s then drive (encodeFrame emptyFrame) false s else drive (oldestFrame s) false (removeOldest s)

/-- POP: remove the oldest frame and return it on `dout` (R90). -/
def execPop (s : State) : Host.Outcome State Fault Refusal :=
  commandEdge s (popEffect s)

end Sys2Proof.Machine
end

