-- ==== Sys2Proof/Machine/Dispatch.lean ====
section
/-! DEFINITION. The meaning of each command, one arm per constructor of Instr. -/

namespace Sys2Proof.Machine

def exec (i : Instr) (s : State) : Host.Outcome State Fault Refusal :=
  match i with
  | .nop => Sys2Proof.Machine.execNop s
  | .push f => Sys2Proof.Machine.execPush f s
  | .pop => Sys2Proof.Machine.execPop s
  | .clrlost => Sys2Proof.Machine.execClrlost s
  | .qempty => Sys2Proof.Machine.execQempty s
  | .qfull => Sys2Proof.Machine.execQfull s
  | .qlost => Sys2Proof.Machine.execQlost s
  | .reserved => Sys2Proof.Machine.execReserved s

end Sys2Proof.Machine
end

