-- ==== Sys2Proof/Machine/Clock.lean ====
section
/-! DEFINITION. One clock cycle: the inputs that the host presents, reset before command, and the decoded command. -/

namespace Sys2Proof.Machine

/-- One rising edge with the inputs `c` (R9): with `rst = 1` the reset, whatever `op` and `din` hold (R115, R125), else the
command that `op` and `din` present. -/
def clockEdge (c : Cycle) (s : State) : Host.Outcome State Fault Refusal :=
  if c.rst then .next (resetEdge s) else exec (decodePorts c.op c.din) s

/-- Take the next cycle that the host presents. With none left the run is over (R10). DESIGN CHOICE, safe: log entry 2. -/
def takeCycle (s : State) : Host.Outcome State Fault Refusal :=
  match s.inputs with
  | [] => .refused .endOfRun
  | c :: rest => clockEdge c { s with inputs := rest }

/-- The cycle that presents the command word `w`, with `rst = 0` (R60). -/
def wordCycle (w : CommandWord) : Cycle where
  rst := false
  op  := wordOp w
  din := wordDin w

/-- The cycle that presents the command `i`, with `rst = 0` (R73). -/
def commandCycle (i : Instr) : Cycle :=
  wordCycle (encode i)

/-- The cycle of the assembler line `RST` (R73). -/
def resetCycle : Cycle where
  rst := true
  op  := 0
  din := 0

/-- `s` with the command word in the low `nbits` bits of `w` presented in the next cycle, before those already waiting. A
number that is no command word is presented to no port (log entries 1 and 9). -/
def presentWord (s : State) (nbits w : Nat) : State :=
  if w % 2 ^ nbits < 2 ^ Config.cmdWidth then
    { s with inputs := wordCycle (BitVec.ofNat 91 (w % 2 ^ nbits)) :: s.inputs }
  else s

end Sys2Proof.Machine
end

