-- ==== Sys2Proof/Machine/Step.lean ====
section
/-! DEFINITION. The step, one rising edge of `clk` (R9), and where the host places the command of the next cycle. -/

namespace Sys2Proof.Machine

/-- One step of CANRB: the next cycle that the host presents. -/
def step (s : State) : Host.Outcome State Fault Refusal :=
  takeCycle s

/-- `s` with the command word `w` presented in the next cycle. -/
def State.withFetchWord (s : State) (nbits w : Nat) : State :=
  presentWord s nbits w

end Sys2Proof.Machine
end

