-- ==== Sys2Proof/Machine/Assembler.lean ====
section
/-! DEFINITION. The assembler syntax of 30_encoding R73: a program is one line per cycle, `REP` a shorthand for repeated
lines. A line whose operand is out of its range has no cycle. -/

namespace Sys2Proof.Machine

/-- A number in a line: `base`, with the repetition number `$i` added where `index` says so. DESIGN CHOICE, safe: log
entry 11. -/
structure AsmNumber where
  base  : Nat
  index : Bool
  deriving DecidableEq, Repr

/-- A line, the text of one cycle (R73). An omitted operand of PUSH is `none`. -/
inductive AsmLine where
  | rst
  | nop
  | push (id : AsmNumber) (data : Option (List AsmNumber)) (port len : Option AsmNumber)
  | pop
  | clrlost
  | qempty
  | qfull
  | qlost
  deriving DecidableEq, Repr

/-- An item of a listing: a line, or `REP <k>` with the lines it encloses (R73). -/
inductive AsmItem where
  | line (l : AsmLine)
  | rep (k : Nat) (body : List AsmLine)
  deriving DecidableEq, Repr

/-- A literal number. -/
def asmConst (n : Nat) : AsmNumber := ⟨n, false⟩

/-- `$i` plus an offset. -/
def asmIndex (offset : Nat) : AsmNumber := ⟨offset, true⟩

/-- The value of a number, below `limit`, in repetition `i` (none outside a `REP`, where `$i` has no value). -/
def asmValue (i : Option Nat) (limit : Nat) (n : AsmNumber) : Option Nat :=
  match n.index, i with
  | false, _ => if n.base < limit then some n.base else none
  | true, some k => if n.base + k < limit then some (n.base + k) else none
  | true, none => none

/-- The value of an operand that may be omitted; an omitted one is 0 (R73). -/
def asmOptional (i : Option Nat) (limit : Nat) : Option AsmNumber → Option Nat
  | none => some 0
  | some n => asmValue i limit n

/-- The values of a list of bytes, each 0 to 0xFF. -/
def asmBytes (i : Option Nat) : List AsmNumber → Option (List Byte)
  | [] => some []
  | n :: ns =>
    match asmValue i 256 n, asmBytes i ns with
    | some v, some bs => some (BitVec.ofNat 8 v :: bs)
    | _, _ => none

/-- The eight payload bytes; an omitted `data=` is 8 zero bytes (R73). -/
def asmPayload (i : Option Nat) : Option (List AsmNumber) → Option (Vector Byte 8)
  | none => some (Vector.replicate 8 0)
  | some ns =>
    match asmBytes i ns with
    | some [b0, b1, b2, b3, b4, b5, b6, b7] => some #v[b0, b1, b2, b3, b4, b5, b6, b7]
    | _ => none

/-- The frame of a PUSH line (R73). -/
def asmFrame (i : Option Nat) (id : AsmNumber) (data : Option (List AsmNumber)) (port len : Option AsmNumber) :
    Option Frame :=
  match asmValue i 65536 id, asmPayload i data, asmOptional i 16 port, asmOptional i 16 len with
  | some n, some p, some q, some l => some ⟨BitVec.ofNat 16 n, p, BitVec.ofNat 4 q, BitVec.ofNat 4 l⟩
  | _, _, _, _ => none

/-- The cycle that a line denotes (R73), none where an operand is out of its range. -/
def assembleLine (i : Option Nat) : AsmLine → Option Cycle
  | .rst => some resetCycle
  | .nop => some (commandCycle .nop)
  | .push id data port len => (asmFrame i id data port len).map fun f => commandCycle (.push f)
  | .pop => some (commandCycle .pop)
  | .clrlost => some (commandCycle .clrlost)
  | .qempty => some (commandCycle .qempty)
  | .qfull => some (commandCycle .qfull)
  | .qlost => some (commandCycle .qlost)

/-- The cycles of some lines, one per line. -/
def assembleLines (i : Option Nat) : List AsmLine → Option (List Cycle)
  | [] => some []
  | l :: ls =>
    match assembleLine i l, assembleLines i ls with
    | some c, some cs => some (c :: cs)
    | _, _ => none

/-- The cycles of repetitions `start` to `start + k - 1` of the enclosed lines. -/
def assembleRep (body : List AsmLine) : Nat → Nat → Option (List Cycle)
  | _, 0 => some []
  | start, k + 1 =>
    match assembleLines (some start) body, assembleRep body (start + 1) k with
    | some cs, some rest => some (cs ++ rest)
    | _, _ => none

/-- The cycles of a listing (R73). -/
def assemble : List AsmItem → Option (List Cycle)
  | [] => some []
  | .line l :: items =>
    match assembleLine none l, assemble items with
    | some c, some cs => some (c :: cs)
    | _, _ => none
  | .rep k body :: items =>
    match assembleRep body 0 k, assemble items with
    | some cs, some rest => some (cs ++ rest)
    | _, _ => none

end Sys2Proof.Machine
end

