-- ==== Sys2Proof/Machine/Run.lean ====
section
/-! DEFINITION. Runs and what the host observes of them (00_scope R10, D25). -/

namespace Sys2Proof.Machine

/-- The outputs of one cycle (R9, R10). -/
structure Output where
  dout : Bus
  rbit : Bool
  deriving DecidableEq, Repr

/-- `n` cycles one after the other, each on the state that the one before left (R55). -/
def run : Nat → State → Host.Outcome State Fault Refusal
  | 0, s => .next s
  | n + 1, s =>
    match step s with
    | .next t => run n t
    | .fault r => .fault r
    | .refused r => .refused r

/-- The observation of the next `n` cycles: the outputs of each, in order (R10). It ends where a cycle has no outcome. -/
def observe : Nat → State → List Output
  | 0, _ => []
  | n + 1, s =>
    match step s with
    | .next t => ⟨t.dout, t.rbit⟩ :: observe n t
    | .fault _ => []
    | .refused _ => []

/-- How many of the next `n` cycles start in a state that meets `p`. -/
def countCycles (p : State → Bool) : Nat → State → Nat
  | 0, _ => 0
  | n + 1, s =>
    (if p s then 1 else 0) +
      match step s with
      | .next t => countCycles p n t
      | .fault _ => 0
      | .refused _ => 0

/-- The next cycle presents opcode `op` with `rst = 0`. -/
def presentsNext (op : Opcode) (s : State) : Bool :=
  match s.inputs with
  | [] => false
  | c :: _ => !c.rst && c.op == op

/-- The next cycle has `rst = 1`. -/
def resetsNext (s : State) : Bool :=
  match s.inputs with
  | [] => false
  | c :: _ => c.rst

/-- The next cycle is a PUSH. -/
def pushesNext (s : State) : Bool :=
  presentsNext 0b001 s

/-- The next cycle is a PUSH on a full buffer, an overwrite (R34, R111). -/
def overwritesNext (s : State) : Bool :=
  presentsNext 0b001 s && isFull s

/-- The next cycle is a POP that removes a frame (R90). -/
def removesNext (s : State) : Bool :=
  presentsNext 0b010 s && !isEmpty s

/-- The next cycle clears the loss flag: a reset or a CLRLOST (R27, R102). -/
def clearsNext (s : State) : Bool :=
  resetsNext s || presentsNext 0b011 s

end Sys2Proof.Machine
end

