-- ==== Sys2Proof/Safety.lean ====
section
/-! DEFINITION. The terms that claims are stated in: the invariants of 10_state, the host's boot duty, the frames that the
buffer holds, and the queue that CANRB is meant to be. -/

namespace Sys2Proof.Machine

/-- `head` and `tail` are valid indices and `count` is at most `CAP` (R29, R30). -/
abbrev State.InRange (s : State) : Prop :=
  s.head.toNat < Config.cap ∧ s.tail.toNat < Config.cap ∧ s.count.toNat ≤ Config.cap

/-- `tail == (head + count) mod CAP` (R32). -/
abbrev State.RingAligned (s : State) : Prop :=
  s.tail.toNat = (s.head.toNat + s.count.toNat) % Config.cap

/-- A state in which every command has its effect: a reset edge has happened and the registers are in range (R119, R131). -/
abbrev State.Ready (s : State) : Prop :=
  s.constructed = true ∧ s.InRange

/-- The invariant of every step: the memory is canonical (the model's representation), and from the first reset on R29, R30
and R32 hold. -/
abbrev State.Inv (s : State) : Prop :=
  s.mem.wf = true ∧ (s.constructed = true → s.InRange ∧ s.RingAligned)

/-- The host's boot duty: only NOP before the first reset cycle (R130, R131). Opcode `111` is no NOP here. DEDUCED, safe: log
entry 10. -/
def bootOk : List Cycle → Bool
  | [] => true
  | c :: cs => c.rst || (c.op == 0b000 && bootOk cs)

/-- The FIFO contents: the occupied slots, oldest first (R33). -/
def contents (s : State) : List Bus :=
  (List.range s.count.toNat).map fun k => readSlot s.mem (occupiedIndex s k)

/-- A bounded queue of frames with a loss flag: what CANRB is for (R1). -/
structure Fifo where
  /-- The stored frames, oldest first. -/
  frames : List Bus
  /-- Whether a frame was lost since the flag was last cleared. -/
  lost   : Bool
  deriving DecidableEq, Repr

/-- Append a frame; a full queue drops its oldest frame for it (R86, R88). -/
def Fifo.append (b : Bus) (q : Fifo) : Fifo :=
  if q.frames.length = Config.cap then ⟨q.frames.tail ++ [b], true⟩ else ⟨q.frames ++ [b], q.lost⟩

/-- What each command does to the queue, and its outputs. -/
def Fifo.command (q : Fifo) : Instr → Fifo × Output
  | .nop => (q, ⟨0, false⟩)
  | .push f => (q.append (encodeFrame f), ⟨0, false⟩)
  | .pop =>
    match q.frames with
    | [] => (q, ⟨0, false⟩)
    | b :: bs => (⟨bs, q.lost⟩, ⟨b, false⟩)
  | .clrlost => (⟨q.frames, false⟩, ⟨0, false⟩)
  | .qempty => (q, ⟨0, q.frames.isEmpty⟩)
  | .qfull => (q, ⟨0, decide (q.frames.length = Config.cap)⟩)
  | .qlost => (q, ⟨0, q.lost⟩)
  | .reserved => (q, ⟨0, false⟩)

/-- One cycle of the queue: reset makes it new, whatever the command (R126, R127). -/
def Fifo.cycle (q : Fifo) (c : Cycle) : Fifo × Output :=
  if c.rst then (⟨[], false⟩, ⟨0, false⟩) else q.command (decodePorts c.op c.din)

/-- What the queue shows over a list of cycles. -/
def Fifo.observe (q : Fifo) : List Cycle → List Output
  | [] => []
  | c :: cs => (q.cycle c).2 :: Fifo.observe (q.cycle c).1 cs

/-- The queue that a state of CANRB stands for. -/
def State.toFifo (s : State) : Fifo :=
  ⟨contents s, s.dataLost⟩

/-- Two states agree on all but what their unoccupied slots hold, and on the outputs of the cycle before (R42). -/
structure State.SameButUnoccupied (s t : State) : Prop where
  head        : s.head = t.head
  tail        : s.tail = t.tail
  count       : s.count = t.count
  dataLost    : s.dataLost = t.dataLost
  constructed : s.constructed = t.constructed
  inputs      : s.inputs = t.inputs
  contents    : contents s = contents t

end Sys2Proof.Machine
end

