-- ==== Sys2Proof/Certificates/Slice0/Obligations.lean ====
section
/-! DEFINITION. What is claimed of CANRB: one proposition per claim, each with the rules of spec/ that it rests on. A claim
whose docstring names a log entry rests in that clause on a choice of the model. -/

open Sys2Proof Sys2Proof.Machine

/-! ### Encoding -/

/-- R66: `encode` and `decode` are inverse bijections between frames and 88-bit values. -/
def Obligations.FrameCodecBijective : Prop :=
  (∀ f : Frame, decodeFrame (encodeFrame f) = f) ∧ (∀ b : Bus, encodeFrame (decodeFrame b) = b)

/-- R47, R49, R64: the eleven bytes of the serialisation, field by field, and where each stands on the bus. -/
def Obligations.SerialisationLayout : Prop :=
  ∀ f : Frame,
    (serialise f).length = 11 ∧
    (serialise f)[0]? = some (f.identifier.extractLsb' 0 8) ∧
    (serialise f)[1]? = some (f.identifier.extractLsb' 8 8) ∧
    (∀ i (h : i < 8), (serialise f)[2 + i]? = some f.payload[i]) ∧
    (serialise f)[10]? = some (packedByte f) ∧
    (packedByte f).toNat = 16 * f.length.toNat + f.port.toNat ∧
    (∀ k < 11, (serialise f)[k]? = some ((encodeFrame f).extractLsb' (8 * k) 8)) ∧
    (encodeFrame f).extractLsb' 0 16 = f.identifier ∧
    (encodeFrame f).extractLsb' 80 4 = f.port ∧
    (encodeFrame f).extractLsb' 84 4 = f.length

/-- R60: `W = din ++ op`, numerically `din * 8 + op`; the decoder reads the two parts, and a cycle with `rst = 1` is a reset
cycle whatever `W` holds. -/
def Obligations.CommandWordLayout : Prop :=
  (∀ (op : Opcode) (din : Bus),
    wordOp (din ++ op) = op ∧ wordDin (din ++ op) = din ∧ (din ++ op).toNat = din.toNat * 8 + op.toNat ∧
      decode (din ++ op) = decodePorts op din) ∧
  (∀ w : CommandWord, wordDin w ++ wordOp w = w) ∧
  (∀ (w : CommandWord) (s : State), clockEdge { wordCycle w with rst := true } s = .next (resetEdge s))

/-- R61, R62: `op` alone selects the command, each of its eight values exactly one. -/
def Obligations.OpcodeMap : Prop :=
  (∀ din : Bus,
    decodePorts 0b000 din = .nop ∧ decodePorts 0b001 din = .push (decodeFrame din) ∧ decodePorts 0b010 din = .pop ∧
    decodePorts 0b011 din = .clrlost ∧ decodePorts 0b100 din = .qempty ∧ decodePorts 0b101 din = .qfull ∧
    decodePorts 0b110 din = .qlost ∧ decodePorts 0b111 din = .reserved) ∧
  (∀ (op : Opcode) (din : Bus), (decodePorts op din).opcode = op)

/-- R63: only PUSH reads `din`; every other command's cycle is the same whatever `din` holds, and is assembled with zeros. -/
def Obligations.OnlyPushReadsDin : Prop :=
  (∀ (op : Opcode) (din din' : Bus) (rst : Bool) (s : State), op ≠ 0b001 →
    clockEdge ⟨rst, op, din⟩ s = clockEdge ⟨rst, op, din'⟩ s) ∧
  (∀ i : Instr, i.opcode ≠ 0b001 → wordDin (encode i) = 0)

/-- R60, R61, R64, R65, R66: decoding an encoded command gives it back, with every operand at every value. -/
def Obligations.DecodeEncodeAgree : Prop :=
  ∀ i : Instr, i.wf = true → decode (encode i) = i

/-- R62, R63, R66: encoding a decoded word gives a PUSH word back, and any other word with zeros on `din`. -/
def Obligations.EncodeDecodeAgree : Prop :=
  ∀ w : CommandWord,
    (wordOp w = 0b001 → encode (decode w) = w) ∧
    (wordOp w ≠ 0b001 → encode (decode w) = (0 : Bus) ++ wordOp w)

/-- R69: the worked encoding, its bytes, its bus value and its PUSH word. -/
def Obligations.WorkedEncoding : Prop :=
  serialise ⟨0x1ABC, #v[1, 2, 3, 4, 5, 6, 7, 8], 5, 8⟩ =
    [0xBC, 0x1A, 0x01, 0x02, 0x03, 0x04, 0x05, 0x06, 0x07, 0x08, 0x85] ∧
  encodeFrame ⟨0x1ABC, #v[1, 2, 3, 4, 5, 6, 7, 8], 5, 8⟩ = 0x8508070605040302011ABC ∧
  encode (.push ⟨0x1ABC, #v[1, 2, 3, 4, 5, 6, 7, 8], 5, 8⟩) = 0x4284038302820181008D5E1 ∧
  decodeTableWord 91 0x4284038302820181008D5E1 = some (.push ⟨0x1ABC, #v[1, 2, 3, 4, 5, 6, 7, 8], 5, 8⟩)

/-- Vectors X6 to X8 of 95_test_vectors and R68: a word of each row, and the sentinel's encoding. -/
def Obligations.SampleWordsDecode : Prop :=
  decodeTableWord 91 0x0 = some .nop ∧ decodeTableWord 91 0x2 = some .pop ∧ decodeTableWord 91 0x3 = some .clrlost ∧
  decodeTableWord 91 0x4 = some .qempty ∧ decodeTableWord 91 0x5 = some .qfull ∧ decodeTableWord 91 0x6 = some .qlost ∧
  decodeTableWord 91 0x7 = some .reserved ∧
  decodeTableWord 91 0x1001 = some (.push ⟨0x200, Vector.replicate 8 0, 0, 0⟩) ∧
  encodeFrame emptyFrame = 0

/-- R73 and log entry 11: the cycle that each line denotes, its omitted operands, the ranges of its operands, and what REP
is short for. -/
def Obligations.AssemblerLines : Prop :=
  (∀ i : Option Nat,
    assembleLine i .rst = some ⟨true, 0b000, 0⟩ ∧ assembleLine i .nop = some ⟨false, 0b000, 0⟩ ∧
    assembleLine i .pop = some ⟨false, 0b010, 0⟩ ∧ assembleLine i .clrlost = some ⟨false, 0b011, 0⟩ ∧
    assembleLine i .qempty = some ⟨false, 0b100, 0⟩ ∧ assembleLine i .qfull = some ⟨false, 0b101, 0⟩ ∧
    assembleLine i .qlost = some ⟨false, 0b110, 0⟩) ∧
  (∀ (i : Option Nat) (f : Frame),
    assembleLine i (.push (asmConst f.identifier.toNat) (some (f.payload.toList.map fun b => asmConst b.toNat))
      (some (asmConst f.port.toNat)) (some (asmConst f.length.toNat))) = some ⟨false, 0b001, encodeFrame f⟩ ∧
    assembleLine i (.push (asmConst f.identifier.toNat) none none none) =
      some ⟨false, 0b001, encodeFrame ⟨f.identifier, Vector.replicate 8 0, 0, 0⟩⟩) ∧
  (∀ (i : Option Nat) (n : Nat) (d : Option (List AsmNumber)) (p l : Option AsmNumber),
    65536 ≤ n → assembleLine i (.push (asmConst n) d p l) = none) ∧
  (∀ (k : Nat) (body : List AsmLine) (cs : Nat → List Cycle),
    (∀ j < k, assembleLines (some j) body = some (cs j)) →
      assemble [.rep k body] = some ((List.range k).flatMap cs))

/-! ### What each command does: completion and result -/

/-- R105: NOP completes in every state, with both outputs zero and no state write. -/
def Obligations.NopDoesNothing : Prop :=
  ∀ s : State, exec .nop s = .next { s with dout := 0, rbit := false }

/-- R106, with the hardware value `reservedOp = nop`: opcode `111` does as NOP; with `refuse` the run is refused. That it
does as NOP in ready states only is the model's choice (DEDUCED, log entry 10); that with `refuse` the refusal comes before
the stops of R119 and R131 is the model's choice too (DESIGN CHOICE, log entry 12). -/
def Obligations.ReservedActsAsNop : Prop :=
  (∀ s : State, s.Ready → exec .reserved s = .next { s with dout := 0, rbit := false }) ∧
  (∀ s : State, reservedUnder .refuse s = .refused .reservedOpcode)

/-- R80, R81, R100: the three queries answer on `rbit` from the state before the edge and write no state. -/
def Obligations.QueriesAnswer : Prop :=
  ∀ s : State, s.Ready →
    exec .qempty s = .next { s with dout := 0, rbit := decide (s.count.toNat = 0) } ∧
    exec .qfull s = .next { s with dout := 0, rbit := decide (s.count.toNat = 100) } ∧
    exec .qlost s = .next { s with dout := 0, rbit := s.dataLost }

/-- R101: CLRLOST clears the loss flag, whatever it held. -/
def Obligations.ClrlostClearsFlag : Prop :=
  ∀ s : State, s.Ready → exec .clrlost s = .next { s with dataLost := false, dout := 0, rbit := false }

/-- R85, R86, R87: PUSH always stores its frame in `Slot[tail]`, whole, and advances `tail`; on a full buffer it evicts the
oldest frame first and sets the flag. -/
def Obligations.PushStoresFrame : Prop :=
  ∀ (f : Frame) (s : State), s.Ready → s.mem.wf = true →
    ∃ t, exec (.push f) s = .next t ∧ t.dout = 0 ∧ t.rbit = false ∧
      readSlot t.mem s.tail.toNat = encodeFrame f ∧
      (∀ i < 100, i ≠ s.tail.toNat → readSlot t.mem i = readSlot s.mem i) ∧
      t.tail.toNat = (s.tail.toNat + 1) % 100 ∧
      (s.count.toNat = 100 →
        t.head.toNat = (s.head.toNat + 1) % 100 ∧ t.count.toNat = 100 ∧ t.dataLost = true) ∧
      (s.count.toNat ≠ 100 →
        t.head = s.head ∧ t.count.toNat = s.count.toNat + 1 ∧ t.dataLost = s.dataLost)

/-- R90: POP drives and removes the oldest frame; on an empty buffer it drives the sentinel and changes nothing. -/
def Obligations.PopReturnsOldest : Prop :=
  ∀ s : State, s.Ready →
    ∃ t, exec .pop s = .next t ∧ t.rbit = false ∧ t.tail = s.tail ∧ t.dataLost = s.dataLost ∧ t.mem = s.mem ∧
      (s.count.toNat = 0 →
        t.dout = encodeFrame emptyFrame ∧ t.dout = 0 ∧ t.head = s.head ∧ t.count = s.count) ∧
      (s.count.toNat ≠ 0 →
        t.dout = readSlot s.mem s.head.toNat ∧ t.head.toNat = (s.head.toNat + 1) % 100 ∧
          t.count.toNat = s.count.toNat - 1)

/-- R6, R43: the index increment is a true modulo. -/
def Obligations.IndexIncrementIsModulo : Prop :=
  ∀ i : Index, i.toNat < 100 →
    (nextIndex i).toNat = (i.toNat + 1) % 100 ∧ (nextIndex i).toNat < 100 ∧
    (i.toNat = 99 → nextIndex i = 0) ∧ (i.toNat < 99 → nextIndex i = i + 1)

/-! ### Frames -/

/-- NOP, the reserved opcode and the queries change nothing but the outputs (R53, R80, R81, R100, R105, R106). -/
def Obligations.IdleAndQueryFrame : Prop :=
  ∀ i : Instr, i = .nop ∨ i = .reserved ∨ i = .qempty ∨ i = .qfull ∨ i = .qlost →
    ∀ s t : State, exec i s = .next t →
      t.head = s.head ∧ t.tail = s.tail ∧ t.count = s.count ∧ t.dataLost = s.dataLost ∧
      t.constructed = s.constructed ∧ t.inputs = s.inputs ∧ ∀ a, t.mem.read a = s.mem.read a

/-- CLRLOST changes nothing but the flag and the outputs (R101). -/
def Obligations.ClrlostFrame : Prop :=
  ∀ s t : State, exec .clrlost s = .next t →
    t.head = s.head ∧ t.tail = s.tail ∧ t.count = s.count ∧ t.constructed = s.constructed ∧ t.inputs = s.inputs ∧
    ∀ a, t.mem.read a = s.mem.read a

/-- POP changes nothing but `head`, `count` and the outputs; the slot that it reads keeps its frame (R90, R91). -/
def Obligations.PopFrame : Prop :=
  ∀ s t : State, exec .pop s = .next t →
    t.tail = s.tail ∧ t.dataLost = s.dataLost ∧ t.constructed = s.constructed ∧ t.inputs = s.inputs ∧
    (∀ a, t.mem.read a = s.mem.read a) ∧ (∀ i < 100, readSlot t.mem i = readSlot s.mem i)

/-- PUSH changes no byte outside the slot at `tail`, and neither `head` nor the flag unless the buffer is full (R85). -/
def Obligations.PushFrame : Prop :=
  ∀ (f : Frame) (s t : State), s.mem.wf = true → exec (.push f) s = .next t →
    t.constructed = s.constructed ∧ t.inputs = s.inputs ∧
    (s.count.toNat ≠ 100 → t.head = s.head ∧ t.dataLost = s.dataLost) ∧
    ∀ a, a < pushAddress s ∨ pushAddress s + 11 ≤ a → t.mem.read a = s.mem.read a

/-! ### Steps and stops -/

/-- R9, R37: when the next cycle presents a command, the step is that command on the state with the cycle taken; and the word
that `withFetchWord` places is the next to run (log entry 1). -/
def Obligations.StepRunsDecodedCommand : Prop :=
  (∀ (s : State) (c : Cycle) (rest : List Cycle) (i : Instr),
    s.inputs = c :: rest → c.rst = false → decodePorts c.op c.din = i → i.wf = true →
      step s = exec i { s with inputs := rest }) ∧
  (∀ (s : State) (nbits w : Nat) (i : Instr),
    decodeTableWord nbits w = some i → step (s.withFetchWord nbits w) = exec i s)

/-- Each step takes exactly one cycle that the host presents, and a run ends with its last cycle (R10, R55, R137; that the end
is a refusal by name is log entry 2). -/
def Obligations.StepTakesOneCycle : Prop :=
  (∀ s t : State, step s = .next t → ∃ c, s.inputs = c :: t.inputs) ∧
  (∀ s : State, s.inputs = [] → step s = .refused .endOfRun)

/-- R86, R110, R137: from a ready state every cycle completes, in one step each, whatever it holds. -/
def Obligations.EveryCycleCompletes : Prop :=
  ∀ (s : State) (n : Nat), s.Ready → n ≤ s.inputs.length →
    ∃ t, run n s = .next t ∧ t.Ready ∧ t.inputs = s.inputs.drop n

/-- R44, R119: in a state with a register out of its range every command but NOP faults, and no value is computed. Two
clauses are the model's choice: that the reserved opcode faults too, where R106 says that it leaves any state unchanged
(DEDUCED, log entry 10), and that the fault comes before the refusal that R131 asks for before the first reset (DEDUCED, log
entry 5). -/
def Obligations.OutOfRangeRegisterFaults : Prop :=
  ∀ (i : Instr) (s : State), i ≠ .nop →
    100 ≤ s.head.toNat ∨ 100 ≤ s.tail.toNat ∨ 101 ≤ s.count.toNat →
    exec i s = .fault .registerEncoding

/-- R41, R131: before the first reset no command but NOP runs, NOP and reset do. Two clauses are the model's choice: that the
reserved opcode stops too, where R106 says that it leaves any state unchanged (DEDUCED, log entry 10), and which of the two
stops a state with a register out of range takes (DEDUCED, log entry 5). -/
def Obligations.BeforeFirstReset : Prop :=
  ∀ s : State, s.constructed = false →
    (∀ i : Instr, i ≠ .nop →
      (s.InRange → exec i s = .refused .beforeFirstReset) ∧ (¬ s.InRange → exec i s = .fault .registerEncoding)) ∧
    (∃ t, exec .nop s = .next t ∧ t.dout = 0 ∧ t.rbit = false) ∧
    (∀ (op : Opcode) (din : Bus), ∃ t, clockEdge ⟨true, op, din⟩ s = .next t ∧ t.Ready)

/-- R130, R131: before the first reset, a run completes exactly when the host keeps the boot duty. That the reserved opcode
before the first reset breaks the duty and stops the run, where R106 says that it leaves any state unchanged, is the model's
choice (DEDUCED, log entry 10). -/
def Obligations.BootDutyIsExact : Prop :=
  ∀ s : State, s.constructed = false →
    ((∃ t, run s.inputs.length s = .next t) ↔ bootOk s.inputs = true)

/-! ### Reset -/

/-- R125, R127, R128: a cycle with `rst = 1` gives the registers their reset values from any state, whatever `op` and `din`
hold; no slot is written, every stored frame is dropped, the flag is clear and both outputs are zero. -/
def Obligations.ResetCycleResets : Prop :=
  ∀ (s : State) (c : Cycle) (rest : List Cycle), s.inputs = c :: rest → c.rst = true →
    ∃ t, step s = .next t ∧ t.head = 0 ∧ t.tail = 0 ∧ t.count = 0 ∧ t.dataLost = false ∧ t.dout = 0 ∧ t.rbit = false ∧
      t.inputs = rest ∧ t.constructed = true ∧ contents t = [] ∧
      (∀ a, t.mem.read a = s.mem.read a) ∧ (∀ i < 100, readSlot t.mem i = readSlot s.mem i)

/-- R129: holding `rst = 1` for several cycles gives the state of one. -/
def Obligations.HeldResetIsOneReset : Prop :=
  ∀ (s : State) (cs rest : List Cycle) (c : Cycle), (∀ d ∈ cs, d.rst = true) → c.rst = true →
    run (cs.length + 1) { s with inputs := c :: (cs ++ rest) } = run 1 { s with inputs := c :: rest }

/-- R40 and log entries 1, 3, 4 and 7: the state right after reset, and that a reset cycle on a state with nothing in its
slots and nothing more presented leaves it. -/
def Obligations.ResetStateHoldsResetValues : Prop :=
  State.reset.head = 0 ∧ State.reset.tail = 0 ∧ State.reset.count = 0 ∧ State.reset.dataLost = false ∧
  State.reset.dout = 0 ∧ State.reset.rbit = false ∧ contents State.reset = [] ∧
  (∀ (s : State) (c : Cycle), c.rst = true → step { s with mem := [], inputs := [c] } = .next State.reset)

/-! ### Whole-machine rules -/

/-- R102: only CLRLOST and reset clear the flag; only a PUSH on a full buffer sets it. -/
def Obligations.DataLostWriters : Prop :=
  ∀ s t : State, step s = .next t →
    t.dataLost = if clearsNext s then false else if overwritesNext s then true else s.dataLost

/-- R23, R45, R46: only a PUSH writes a slot, the whole slot at `tail` with the 88 bits of `din`. -/
def Obligations.OnlyPushWritesSlots : Prop :=
  ∀ s t : State, s.mem.wf = true → step s = .next t →
    (pushesNext s = false → t.mem = s.mem) ∧
    (pushesNext s = true → ∀ i < 100,
      readSlot t.mem i =
        if i = s.tail.toNat then (match s.inputs with | [] => 0 | c :: _ => c.din) else readSlot s.mem i)

/-- R92, R72: `dout` is driven only by POP and `rbit` only by a query; otherwise each is zero. -/
def Obligations.OutputsZeroUnlessDriven : Prop :=
  ∀ s t : State, step s = .next t →
    (presentsNext 0b010 s = false → t.dout = 0) ∧
    (presentsNext 0b100 s = false → presentsNext 0b101 s = false → presentsNext 0b110 s = false → t.rbit = false)

/-- R53: NOP, the reserved opcode, the queries, CLRLOST and a POP on an empty buffer are idempotent; PUSH is not, and neither
is a POP on a buffer of at least two frames. (A second POP after one that drained the buffer is a POP on an empty buffer,
which changes nothing.) -/
def Obligations.CommandIdempotency : Prop :=
  (∀ i : Instr, i = .nop ∨ i = .reserved ∨ i = .qempty ∨ i = .qfull ∨ i = .qlost ∨ i = .clrlost →
    ∀ s t : State, exec i s = .next t → exec i t = .next t) ∧
  (∀ s t : State, s.count.toNat = 0 → exec .pop s = .next t → exec .pop t = .next t) ∧
  (∀ s t : State, s.count.toNat ≥ 2 → exec .pop s = .next t → exec .pop t ≠ .next t) ∧
  (∀ (f : Frame) (s t : State), exec (.push f) s = .next t → exec (.push f) t ≠ .next t)

/-- R88: on a full buffer PUSH discards the oldest frame; the 99 others keep their order and the new one is the newest. -/
def Obligations.FullPushDropsOldest : Prop :=
  ∀ (f : Frame) (s : State), s.Inv → s.Ready → s.count.toNat = 100 →
    ∃ t, exec (.push f) s = .next t ∧ (contents s).length = 100 ∧
      contents t = (contents s).drop 1 ++ [encodeFrame f] ∧
      s.head = s.tail ∧ t.head = t.tail

/-- R55, R132: a POP right after a PUSH into an empty buffer returns that frame. -/
def Obligations.PopAfterPushReturnsFrame : Prop :=
  ∀ (f : Frame) (s : State), s.Inv → s.Ready → s.count.toNat = 0 →
    ∃ t u, exec (.push f) s = .next t ∧ exec .pop t = .next u ∧ u.dout = encodeFrame f ∧
      decodeFrame u.dout = f ∧ u.count.toNat = 0 ∧ u.dataLost = s.dataLost

/-- R93: an empty POP and a POP of a stored all-zero frame show the same outputs; QEMPTY tells the two states apart. -/
def Obligations.SentinelIsAmbiguous : Prop :=
  ∀ s s' : State, s.Ready → s'.Ready → s.count.toNat = 0 → s'.count.toNat ≠ 0 → oldestFrame s' = 0 →
    ∃ t t' u u', exec .pop s = .next t ∧ exec .pop s' = .next t' ∧ t.dout = t'.dout ∧ t.rbit = t'.rbit ∧
      exec .qempty s = .next u ∧ exec .qempty s' = .next u' ∧ u.rbit = true ∧ u'.rbit = false

/-- R100, R101, R55: an overwrite shows in the very next cycle, CLRLOST on a full buffer keeps it full, and the next PUSH
sets the flag again. -/
def Obligations.LossFlagSetAndCleared : Prop :=
  ∀ (f g : Frame) (s : State), s.Ready → s.count.toNat = 100 →
    ∃ t u v w x y, exec (.push f) s = .next t ∧ exec .qlost t = .next u ∧ u.rbit = true ∧
      exec .clrlost u = .next v ∧ exec .qlost v = .next w ∧ w.rbit = false ∧ w.count.toNat = 100 ∧
      exec (.push g) w = .next x ∧ exec .qlost x = .next y ∧ y.rbit = true

/-! ### Invariants and headline results -/

/-- The invariant of R29, R30 and R32, and of the canonical memory (log entry 6), holds right after reset. -/
def Obligations.ResetStateMeetsInv : Prop :=
  State.reset.Inv

/-- Every step keeps the invariant of R29, R30 and R32, and the canonical memory (log entry 6). -/
def Obligations.StepKeepsInv : Prop :=
  ∀ s t : State, s.Inv → step s = .next t → t.Inv

/-- R29, R30, R32: from the first reset on, after any number of cycles, the registers are in range and `tail` is
`(head + count) mod 100`; an empty or full buffer has `head = tail`. -/
def Obligations.RegistersStayInRange : Prop :=
  ∀ (s t : State) (n : Nat), s.Inv → s.constructed = true → run n s = .next t →
    t.head.toNat < 100 ∧ t.tail.toNat < 100 ∧ t.count.toNat ≤ 100 ∧
    t.tail.toNat = (t.head.toNat + t.count.toNat) % 100 ∧
    (t.count.toNat = 0 ∨ t.count.toNat = 100 → t.head = t.tail)

/-- R33, R88, R90, R94: each cycle of CANRB is a cycle of the bounded queue of the frames in its occupied slots, with the
same outputs. -/
def Obligations.StepRefinesFifo : Prop :=
  ∀ (s : State) (c : Cycle) (rest : List Cycle), s.Inv → s.Ready → s.inputs = c :: rest →
    ∃ t, step s = .next t ∧ s.toFifo.cycle c = (t.toFifo, ⟨t.dout, t.rbit⟩)

/-- R10, R94: over any list of cycles the host observes exactly what the bounded queue shows. -/
def Obligations.RunShowsFifo : Prop :=
  ∀ s : State, s.Inv → s.Ready → observe s.inputs.length s = s.toFifo.observe s.inputs

/-- R42: what an unoccupied slot holds never reaches an output. -/
def Obligations.UnoccupiedSlotsUnobservable : Prop :=
  ∀ (s t : State) (n : Nat), s.Inv → t.Inv → s.SameButUnoccupied t → observe n s = observe n t

/-- R34: the flag is set exactly when a PUSH on a full buffer has happened since the last reset or CLRLOST. -/
def Obligations.LossFlagRecordsOverwrite : Prop :=
  ∀ (s t : State) (n : Nat), s.dataLost = false → run n s = .next t →
    (t.dataLost = true ↔
      ∃ k < n, ∃ u, run k s = .next u ∧ overwritesNext u = true ∧
        ∀ j, k < j → j < n → ∀ v, run j s = .next v → clearsNext v = false)

/-- R82, R87: frames are neither made nor lost but by PUSH, POP and eviction, and QEMPTY answers 1 exactly when every frame
stored since the buffer was empty has been popped or evicted. -/
def Obligations.FramesAreConserved : Prop :=
  ∀ (s t : State) (n : Nat), s.Ready → (∀ j < n, ∀ u, run j s = .next u → resetsNext u = false) → run n s = .next t →
    s.count.toNat + countCycles pushesNext n s =
      t.count.toNat + countCycles removesNext n s + countCycles overwritesNext n s ∧
    (s.count.toNat = 0 → ∃ u, exec .qempty t = .next u ∧
      (u.rbit = true ↔ countCycles pushesNext n s = countCycles removesNext n s + countCycles overwritesNext n s))

/-- R89: what `n` PUSHes from reset leave. -/
def Obligations.PushesFromReset : Prop :=
  ∀ (s : State) (fs : List Frame), s.mem.wf = true →
    ∃ t, run fs.length { resetEdge s with inputs := fs.map fun f => commandCycle (.push f) } = .next t ∧
      t.count.toNat = min fs.length 100 ∧ (t.dataLost = true ↔ fs.length > 100) ∧
      contents t = (fs.drop (fs.length - 100)).map encodeFrame ∧
      t.head.toNat = (fs.length - 100) % 100 ∧ t.tail.toNat = fs.length % 100

/-- R94: from reset, fewer than 100 frames come back in push order with the flag clear; after 101 PUSHes the POP returns the
second frame; after 100 PUSHes, 50 POPs and 50 PUSHes, 100 POPs return all stored frames in push order. -/
def Obligations.PopsReturnPushOrder : Prop :=
  ∀ (s : State) (fs : List Frame), s.mem.wf = true →
    (fs.length < 100 →
      (∃ t, run (2 * fs.length) { resetEdge s with
          inputs := fs.map (fun f => commandCycle (.push f)) ++ List.replicate fs.length (commandCycle .pop) } = .next t ∧
        t.dataLost = false ∧ t.count.toNat = 0) ∧
      observe (2 * fs.length) { resetEdge s with
          inputs := fs.map (fun f => commandCycle (.push f)) ++ List.replicate fs.length (commandCycle .pop) } =
        List.replicate fs.length ⟨0, false⟩ ++ fs.map fun f => ⟨encodeFrame f, false⟩) ∧
    (fs.length = 101 →
      (observe 102 { resetEdge s with
          inputs := fs.map (fun f => commandCycle (.push f)) ++ [commandCycle .pop] })[101]? =
        fs[1]?.map fun f => ⟨encodeFrame f, false⟩) ∧
    (fs.length = 150 →
      observe 300 { resetEdge s with
          inputs := (fs.take 100).map (fun f => commandCycle (.push f)) ++ List.replicate 50 (commandCycle .pop) ++
            (fs.drop 100).map (fun f => commandCycle (.push f)) ++ List.replicate 100 (commandCycle .pop) } =
        List.replicate 100 ⟨0, false⟩ ++ (fs.take 50).map (fun f => ⟨encodeFrame f, false⟩) ++
          List.replicate 50 ⟨0, false⟩ ++ (fs.drop 50).map fun f => ⟨encodeFrame f, false⟩)
end

