-- ==== Sys2Proof/Laws/Memory.lean ====
section
/-! SUPPORT. The slot array: a read after a write, and that every memory operation keeps the canonical form. -/

namespace Sys2Proof.Machine

theorem Memory.wfFrom_mono {lo lo' : Nat} (h : lo ≤ lo') : ∀ {m : Memory}, Memory.wfFrom lo' m = true → Memory.wfFrom lo m = true
  | [], _ => rfl
  | (a, b) :: m, hm => by
    simp only [Memory.wfFrom, Bool.and_eq_true, decide_eq_true_eq] at hm ⊢
    exact ⟨⟨⟨by omega, hm.1.1.2⟩, hm.1.2⟩, hm.2⟩

/-- An address below every listed one is unlisted. -/
theorem Memory.read_below {x : Nat} : ∀ {m : Memory} {lo : Nat}, Memory.wfFrom lo m = true → x < lo → m.read x = Memory.unlisted
  | [], _, _, _ => rfl
  | (a, b) :: m, lo, hm, hx => by
    simp only [Memory.wfFrom, Bool.and_eq_true, decide_eq_true_eq] at hm
    rw [Memory.read, if_neg (by omega), Memory.read_below hm.2 (by omega)]

theorem Memory.wfFrom_cell_append {x : Nat} {b : Byte} {m : Memory} {lo : Nat} (hlo : lo ≤ x) (hx : x < Memory.size)
    (hm : Memory.wfFrom (x + 1) m = true) : Memory.wfFrom lo (Memory.cell x b ++ m) = true := by
  unfold Memory.cell
  split
  · exact Memory.wfFrom_mono (by omega) hm
  · simpa [Memory.wfFrom, hm, hlo, hx]

theorem Memory.wfFrom_write {x : Nat} {b : Byte} (hx : x < Memory.size) :
    ∀ {m : Memory} {lo : Nat}, lo ≤ x → Memory.wfFrom lo m = true → Memory.wfFrom lo (m.write x b) = true
  | [], lo, hlo, _ => by
    have := Memory.wfFrom_cell_append (b := b) (m := []) hlo hx rfl
    simpa [Memory.write] using this
  | (a, v) :: m, lo, hlo, hm => by
    have hm' := hm
    simp only [Memory.wfFrom, Bool.and_eq_true, decide_eq_true_eq] at hm
    unfold Memory.write
    split
    · refine Memory.wfFrom_cell_append hlo hx ?_
      simp only [Memory.wfFrom, Bool.and_eq_true, decide_eq_true_eq]
      exact ⟨⟨⟨by omega, hm.1.1.2⟩, hm.1.2⟩, hm.2⟩
    · split
      · subst x
        exact Memory.wfFrom_cell_append hlo hx hm.2
      · simp only [Memory.wfFrom, Bool.and_eq_true, decide_eq_true_eq]
        exact ⟨hm.1, Memory.wfFrom_write hx (by omega) hm.2⟩

/-- Writing a byte of the slot array keeps the canonical form. -/
theorem Memory.wf_write {m : Memory} {x : Nat} (b : Byte) (hx : x < Memory.size) (hm : m.wf = true) : (m.write x b).wf = true :=
  Memory.wfFrom_write hx (Nat.zero_le x) hm

theorem Memory.wf_writeBytes : ∀ {bs : List Byte} {m : Memory} {x : Nat}, x + bs.length ≤ Memory.size → m.wf = true →
    (m.writeBytes x bs).wf = true
  | [], _, _, _, hm => hm
  | b :: bs, m, x, hx, hm => by
    rw [List.length_cons] at hx
    rw [Memory.writeBytes]
    exact Memory.wf_writeBytes (by omega) (Memory.wf_write b (by omega) hm)

/-- Writing a slot keeps the canonical form. -/
theorem writeSlot_wf {m : Memory} {i : Nat} (b : Bus) (hi : i < Config.cap) (hm : m.wf = true) : (writeSlot m i b).wf = true := by
  refine Memory.wf_writeBytes ?_ hm
  simp only [slotAddress, Memory.size, Config.cap, Config.frameBytes, busBytes, List.length_cons, List.length_nil] at hi ⊢
  omega

/-- The memory of the state after reset is canonical. -/
theorem reset_mem_wf : State.reset.mem.wf = true := rfl

theorem Memory.read_cell_append {x y : Nat} {b : Byte} {m : Memory} :
    (Memory.cell x b ++ m : Memory).read y = if x = y ∧ b ≠ Memory.unlisted then b else m.read y := by
  unfold Memory.cell
  split <;> simp_all [Memory.read]

theorem Memory.read_writeFrom {x y : Nat} {b : Byte} : ∀ {m : Memory} {lo : Nat}, Memory.wfFrom lo m = true →
    (m.write x b).read y = if x = y then b else m.read y
  | [], _, _ => by
    have := Memory.read_cell_append (x := x) (y := y) (b := b) (m := [])
    rw [List.append_nil] at this
    rw [Memory.write, this]
    by_cases h : x = y <;> by_cases hb : b = Memory.unlisted <;> simp [h, hb, Memory.read]
  | (a, v) :: m, lo, hm => by
    simp only [Memory.wfFrom, Bool.and_eq_true, decide_eq_true_eq] at hm
    have below : x ≤ a → Memory.read m x = Memory.unlisted := fun h => Memory.read_below hm.2 (by omega)
    unfold Memory.write
    split
    · rename_i h
      rw [Memory.read_cell_append]
      by_cases hy : x = y
      · subst hy
        by_cases hb : b = Memory.unlisted
        · simp [hb, Memory.read, below (by omega), show a ≠ x by omega]
        · simp [hb]
      · simp [hy]
    · split
      · rename_i h
        subst h
        rw [Memory.read_cell_append]
        by_cases hy : x = y
        · subst hy
          by_cases hb : b = Memory.unlisted
          · simp [hb, below (Nat.le_refl x)]
          · simp [hb]
        · simp [hy, Memory.read]
      · rename_i h1 h2
        rw [Memory.read, Memory.read_writeFrom hm.2]
        by_cases hy : x = y
        · subst hy
          simp [Ne.symm h2]
        · simp [hy, Memory.read]

/-- A read after a write of one byte. -/
theorem Memory.read_write {m : Memory} (hm : m.wf = true) (x y : Nat) (b : Byte) :
    (m.write x b).read y = if x = y then b else m.read y :=
  Memory.read_writeFrom hm

/-- Reading outside the bytes written. -/
theorem Memory.read_writeBytes_outside {y : Nat} : ∀ {bs : List Byte} {m : Memory} {x : Nat}, m.wf = true →
    x + bs.length ≤ Memory.size → y < x ∨ x + bs.length ≤ y → (m.writeBytes x bs).read y = m.read y
  | [], _, _, _, _, _ => rfl
  | b :: bs, m, x, hm, hx, hy => by
    rw [List.length_cons] at hx hy
    rw [Memory.writeBytes, Memory.read_writeBytes_outside (Memory.wf_write b (by omega) hm) (by omega) (by omega),
      Memory.read_write hm, if_neg (by omega)]

/-- Reading one of the bytes written. -/
theorem Memory.read_writeBytes_inside : ∀ {bs : List Byte} {m : Memory} {x k : Nat} (hk : k < bs.length), m.wf = true →
    x + bs.length ≤ Memory.size → (m.writeBytes x bs).read (x + k) = bs[k]
  | b :: bs, m, x, 0, _, hm, hx => by
    rw [List.length_cons] at hx
    rw [Memory.writeBytes, Memory.read_writeBytes_outside (Memory.wf_write b (by omega) hm) (by omega) (by omega),
      Memory.read_write hm, if_pos (Nat.add_zero x).symm]
    rfl
  | b :: bs, m, x, k + 1, hk, hm, hx => by
    rw [List.length_cons] at hk hx
    rw [Memory.writeBytes, show x + (k + 1) = x + 1 + k by omega,
      Memory.read_writeBytes_inside (by omega) (Memory.wf_write b (by omega) hm) (by omega), List.getElem_cons_succ]

/-- The eleven bytes of a bus value, put together again, are the value (R64, R66). -/
theorem busByte_join (b : Bus) :
    busByte b 10 ++ busByte b 9 ++ busByte b 8 ++ busByte b 7 ++ busByte b 6 ++ busByte b 5 ++ busByte b 4 ++ busByte b 3 ++
      busByte b 2 ++ busByte b 1 ++ busByte b 0 = b := by
  simp only [busByte]
  rw [BitVec.extractLsb'_append_extractLsb'_eq_extractLsb' (by decide), BitVec.extractLsb'_append_extractLsb'_eq_extractLsb' (by decide),
    BitVec.extractLsb'_append_extractLsb'_eq_extractLsb' (by decide), BitVec.extractLsb'_append_extractLsb'_eq_extractLsb' (by decide),
    BitVec.extractLsb'_append_extractLsb'_eq_extractLsb' (by decide), BitVec.extractLsb'_append_extractLsb'_eq_extractLsb' (by decide),
    BitVec.extractLsb'_append_extractLsb'_eq_extractLsb' (by decide), BitVec.extractLsb'_append_extractLsb'_eq_extractLsb' (by decide),
    BitVec.extractLsb'_append_extractLsb'_eq_extractLsb' (by decide), BitVec.extractLsb'_append_extractLsb'_eq_extractLsb' (by decide)]
  exact BitVec.extractLsb'_eq_self

/-- A read of a slot depends on its eleven bytes alone. -/
theorem readSlot_congr {m m' : Memory} {i : Nat}
    (h : ∀ k < Config.frameBytes, m'.read (slotAddress i + k) = m.read (slotAddress i + k)) : readSlot m' i = readSlot m i := by
  have h0 := h 0 (by decide)
  rw [Nat.add_zero] at h0
  simp only [readSlot, h 10 (by decide), h 9 (by decide), h 8 (by decide), h 7 (by decide), h 6 (by decide),
    h 5 (by decide), h 4 (by decide), h 3 (by decide), h 2 (by decide), h 1 (by decide), h0]

/-- Reading the slot that was written. -/
theorem readSlot_writeSlot_same {m : Memory} (hm : m.wf = true) {i : Nat} (hi : i < Config.cap) (b : Bus) :
    readSlot (writeSlot m i b) i = b := by
  have hx : slotAddress i + (busBytes b).length ≤ Memory.size := by
    simp only [slotAddress, Memory.size, Config.cap, Config.frameBytes, busBytes, List.length_cons, List.length_nil] at hi ⊢
    omega
  have hr : ∀ k (hk : k < (busBytes b).length), (writeSlot m i b).read (slotAddress i + k) = (busBytes b)[k] :=
    fun k hk => Memory.read_writeBytes_inside hk hm hx
  have h0 := hr 0 (by simp [busBytes])
  rw [Nat.add_zero] at h0
  rw [readSlot, hr 10 (by simp [busBytes]), hr 9 (by simp [busBytes]), hr 8 (by simp [busBytes]), hr 7 (by simp [busBytes]),
    hr 6 (by simp [busBytes]), hr 5 (by simp [busBytes]), hr 4 (by simp [busBytes]), hr 3 (by simp [busBytes]),
    hr 2 (by simp [busBytes]), hr 1 (by simp [busBytes]), h0]
  exact busByte_join b

/-- A byte outside the slot that was written. -/
theorem read_writeSlot_outside {m : Memory} (hm : m.wf = true) {i x : Nat} (hi : i < Config.cap) (b : Bus)
    (hx : x < slotAddress i ∨ slotAddress i + Config.frameBytes ≤ x) : (writeSlot m i b).read x = m.read x := by
  refine Memory.read_writeBytes_outside hm ?_ hx
  simp only [slotAddress, Memory.size, Config.cap, Config.frameBytes, busBytes, List.length_cons, List.length_nil] at hi ⊢
  omega

/-- Reading another slot than the one that was written. -/
theorem readSlot_writeSlot_other {m : Memory} (hm : m.wf = true) {i j : Nat} (hi : i < Config.cap) (hij : i ≠ j) (b : Bus) :
    readSlot (writeSlot m i b) j = readSlot m j := by
  refine readSlot_congr fun k hk => read_writeSlot_outside hm hi b ?_
  simp only [slotAddress, Config.frameBytes] at hk ⊢
  omega

end Sys2Proof.Machine
end

