-- ==== Sys2Proof/Laws/State.lean ====
section
/-! SUPPORT. What each update of the state leaves in each field, one lemma per field per update. -/

namespace Sys2Proof.Machine

@[simp] theorem drive_mem (d : Bus) (r : Bool) (s : State) : (drive d r s).mem = s.mem := rfl
@[simp] theorem drive_head (d : Bus) (r : Bool) (s : State) : (drive d r s).head = s.head := rfl
@[simp] theorem drive_tail (d : Bus) (r : Bool) (s : State) : (drive d r s).tail = s.tail := rfl
@[simp] theorem drive_count (d : Bus) (r : Bool) (s : State) : (drive d r s).count = s.count := rfl
@[simp] theorem drive_dataLost (d : Bus) (r : Bool) (s : State) : (drive d r s).dataLost = s.dataLost := rfl
@[simp] theorem drive_constructed (d : Bus) (r : Bool) (s : State) : (drive d r s).constructed = s.constructed := rfl
@[simp] theorem drive_inputs (d : Bus) (r : Bool) (s : State) : (drive d r s).inputs = s.inputs := rfl
@[simp] theorem drive_dout (d : Bus) (r : Bool) (s : State) : (drive d r s).dout = d := rfl
@[simp] theorem drive_rbit (d : Bus) (r : Bool) (s : State) : (drive d r s).rbit = r := rfl

@[simp] theorem evictOldest_mem (s : State) : (evictOldest s).mem = s.mem := rfl
@[simp] theorem evictOldest_head (s : State) : (evictOldest s).head = nextIndex s.head := rfl
@[simp] theorem evictOldest_tail (s : State) : (evictOldest s).tail = s.tail := rfl
@[simp] theorem evictOldest_count (s : State) : (evictOldest s).count = s.count - 1 := rfl
@[simp] theorem evictOldest_dataLost (s : State) : (evictOldest s).dataLost = true := rfl
@[simp] theorem evictOldest_constructed (s : State) : (evictOldest s).constructed = s.constructed := rfl
@[simp] theorem evictOldest_inputs (s : State) : (evictOldest s).inputs = s.inputs := rfl
@[simp] theorem evictOldest_dout (s : State) : (evictOldest s).dout = s.dout := rfl
@[simp] theorem evictOldest_rbit (s : State) : (evictOldest s).rbit = s.rbit := rfl

@[simp] theorem insertNewest_mem (b : Bus) (s : State) : (insertNewest b s).mem = writeSlot s.mem s.tail.toNat b := rfl
@[simp] theorem insertNewest_head (b : Bus) (s : State) : (insertNewest b s).head = s.head := rfl
@[simp] theorem insertNewest_tail (b : Bus) (s : State) : (insertNewest b s).tail = nextIndex s.tail := rfl
@[simp] theorem insertNewest_count (b : Bus) (s : State) : (insertNewest b s).count = s.count + 1 := rfl
@[simp] theorem insertNewest_dataLost (b : Bus) (s : State) : (insertNewest b s).dataLost = s.dataLost := rfl
@[simp] theorem insertNewest_constructed (b : Bus) (s : State) : (insertNewest b s).constructed = s.constructed := rfl
@[simp] theorem insertNewest_inputs (b : Bus) (s : State) : (insertNewest b s).inputs = s.inputs := rfl
@[simp] theorem insertNewest_dout (b : Bus) (s : State) : (insertNewest b s).dout = s.dout := rfl
@[simp] theorem insertNewest_rbit (b : Bus) (s : State) : (insertNewest b s).rbit = s.rbit := rfl

@[simp] theorem removeOldest_mem (s : State) : (removeOldest s).mem = s.mem := rfl
@[simp] theorem removeOldest_head (s : State) : (removeOldest s).head = nextIndex s.head := rfl
@[simp] theorem removeOldest_tail (s : State) : (removeOldest s).tail = s.tail := rfl
@[simp] theorem removeOldest_count (s : State) : (removeOldest s).count = s.count - 1 := rfl
@[simp] theorem removeOldest_dataLost (s : State) : (removeOldest s).dataLost = s.dataLost := rfl
@[simp] theorem removeOldest_constructed (s : State) : (removeOldest s).constructed = s.constructed := rfl
@[simp] theorem removeOldest_inputs (s : State) : (removeOldest s).inputs = s.inputs := rfl
@[simp] theorem removeOldest_dout (s : State) : (removeOldest s).dout = s.dout := rfl
@[simp] theorem removeOldest_rbit (s : State) : (removeOldest s).rbit = s.rbit := rfl

@[simp] theorem clearLost_mem (s : State) : (clearLost s).mem = s.mem := rfl
@[simp] theorem clearLost_head (s : State) : (clearLost s).head = s.head := rfl
@[simp] theorem clearLost_tail (s : State) : (clearLost s).tail = s.tail := rfl
@[simp] theorem clearLost_count (s : State) : (clearLost s).count = s.count := rfl
@[simp] theorem clearLost_dataLost (s : State) : (clearLost s).dataLost = false := rfl
@[simp] theorem clearLost_constructed (s : State) : (clearLost s).constructed = s.constructed := rfl
@[simp] theorem clearLost_inputs (s : State) : (clearLost s).inputs = s.inputs := rfl
@[simp] theorem clearLost_dout (s : State) : (clearLost s).dout = s.dout := rfl
@[simp] theorem clearLost_rbit (s : State) : (clearLost s).rbit = s.rbit := rfl

@[simp] theorem resetEdge_mem (s : State) : (resetEdge s).mem = s.mem := rfl
@[simp] theorem resetEdge_head (s : State) : (resetEdge s).head = 0 := rfl
@[simp] theorem resetEdge_tail (s : State) : (resetEdge s).tail = 0 := rfl
@[simp] theorem resetEdge_count (s : State) : (resetEdge s).count = 0 := rfl
@[simp] theorem resetEdge_dataLost (s : State) : (resetEdge s).dataLost = false := rfl
@[simp] theorem resetEdge_constructed (s : State) : (resetEdge s).constructed = true := rfl
@[simp] theorem resetEdge_inputs (s : State) : (resetEdge s).inputs = s.inputs := rfl
@[simp] theorem resetEdge_dout (s : State) : (resetEdge s).dout = 0 := rfl
@[simp] theorem resetEdge_rbit (s : State) : (resetEdge s).rbit = false := rfl

end Sys2Proof.Machine
end

