-- ==== Sys2Proof/Laws/Ops.lean ====
section
/-! SUPPORT. What each shared operation can do, said once. -/

namespace Sys2Proof.Machine

@[simp] theorem cap_eq : Config.cap = 100 := rfl

@[simp] theorem frameBytes_eq : Config.frameBytes = 11 := rfl

@[simp] theorem nextIndex_toNat (i : Index) : (nextIndex i).toNat = (i.toNat + 1) % 100 := by
  simp only [nextIndex, cap_eq, BitVec.toNat_ofNat]
  omega

@[simp] theorem isEmpty_iff (s : State) : isEmpty s = true ↔ s.count.toNat = 0 := by
  rw [isEmpty, decide_eq_true_eq]

@[simp] theorem isFull_iff (s : State) : isFull s = true ↔ s.count.toNat = 100 := by
  rw [isFull, decide_eq_true_eq, cap_eq]

/-- The encodings that the machine checks are the ranges of R29 and R30. -/
theorem registersLegal_iff (s : State) : registersLegal s = true ↔ s.InRange := by
  simp only [registersLegal, State.InRange, Bool.and_eq_true, decide_eq_true_eq, and_assoc]

/-- The ranges of R29 and R30 in numbers. -/
theorem inRange_iff (s : State) : s.InRange ↔ s.head.toNat < 100 ∧ s.tail.toNat < 100 ∧ s.count.toNat ≤ 100 := Iff.rfl

/-- Decrementing a count that is not zero. -/
theorem count_sub_one {c : Index} (h : c.toNat ≠ 0) : (c - 1).toNat = c.toNat - 1 := by
  have := c.isLt
  rw [BitVec.toNat_sub, show (1 : Index).toNat = 1 from rfl]
  omega

/-- Incrementing a count below the largest 7-bit number. -/
theorem count_add_one {c : Index} (h : c.toNat < 127) : (c + 1).toNat = c.toNat + 1 := by
  rw [BitVec.toNat_add, show (1 : Index).toNat = 1 from rfl]
  omega

/-- The eight opcodes. -/
theorem opcode_cases (op : Opcode) :
    op = 0b000 ∨ op = 0b001 ∨ op = 0b010 ∨ op = 0b011 ∨ op = 0b100 ∨ op = 0b101 ∨ op = 0b110 ∨ op = 0b111 := by
  revert op
  decide

/-- The edge of a command in a ready state. -/
theorem commandEdge_ready {s : State} (h : s.Ready) (t : State) : commandEdge s t = .next t := by
  simp [commandEdge, (registersLegal_iff s).mpr h.2, h.1]

/-- All that the edge of a command can answer with a next state. -/
theorem commandEdge_next {s t u : State} (h : commandEdge s t = .next u) : s.Ready ∧ u = t := by
  unfold commandEdge at h
  split at h
  · rename_i hl
    split at h
    · rename_i hc
      cases h
      exact ⟨⟨hc, (registersLegal_iff s).mp hl⟩, rfl⟩
    · cases h
  · cases h

/-- The edge of a command in a state with a register out of its range (R119). -/
theorem commandEdge_outOfRange {s : State} (h : ¬ s.InRange) (t : State) : commandEdge s t = .fault .registerEncoding := by
  rw [← registersLegal_iff] at h
  simp [commandEdge, h]

/-- The edge of a command before the first reset (R131). -/
theorem commandEdge_unconstructed {s : State} (h : s.InRange) (hc : s.constructed = false) (t : State) :
    commandEdge s t = .refused .beforeFirstReset := by
  simp [commandEdge, (registersLegal_iff s).mpr h, hc]

/-- A PUSH on a buffer that is not full only inserts (R85). -/
theorem pushEffect_notFull {s : State} (h : s.count.toNat ≠ 100) (b : Bus) : pushEffect b s = insertNewest b s := by
  rw [Ne, ← isFull_iff] at h
  simp [pushEffect, h]

/-- A PUSH on a full buffer evicts and inserts (R85). -/
theorem pushEffect_full {s : State} (h : s.count.toNat = 100) (b : Bus) : pushEffect b s = insertNewest b (evictOldest s) := by
  rw [← isFull_iff] at h
  simp [pushEffect, h]

/-- A POP on an empty buffer only drives the sentinel (R90). -/
theorem popEffect_empty {s : State} (h : s.count.toNat = 0) : popEffect s = drive (encodeFrame emptyFrame) false s := by
  rw [← isEmpty_iff] at h
  simp [popEffect, h]

/-- A POP on a buffer that is not empty drives and removes the oldest frame (R90). -/
theorem popEffect_notEmpty {s : State} (h : s.count.toNat ≠ 0) :
    popEffect s = drive (oldestFrame s) false (removeOldest s) := by
  rw [Ne, ← isEmpty_iff] at h
  simp [popEffect, h]

/-- What a PUSH leaves in the fields that its two cases share. -/
@[simp] theorem pushEffect_mem (b : Bus) (s : State) : (pushEffect b s).mem = writeSlot s.mem s.tail.toNat b := by
  unfold pushEffect; split <;> rfl
@[simp] theorem pushEffect_tail (b : Bus) (s : State) : (pushEffect b s).tail = nextIndex s.tail := by
  unfold pushEffect; split <;> rfl
@[simp] theorem pushEffect_constructed (b : Bus) (s : State) : (pushEffect b s).constructed = s.constructed := by
  unfold pushEffect; split <;> rfl
@[simp] theorem pushEffect_inputs (b : Bus) (s : State) : (pushEffect b s).inputs = s.inputs := by
  unfold pushEffect; split <;> rfl
@[simp] theorem pushEffect_dataLost (b : Bus) (s : State) : (pushEffect b s).dataLost = (isFull s || s.dataLost) := by
  unfold pushEffect; split <;> simp_all

/-- What a POP leaves in the fields that its two cases share. -/
@[simp] theorem popEffect_mem (s : State) : (popEffect s).mem = s.mem := by
  unfold popEffect; split <;> rfl
@[simp] theorem popEffect_tail (s : State) : (popEffect s).tail = s.tail := by
  unfold popEffect; split <;> rfl
@[simp] theorem popEffect_constructed (s : State) : (popEffect s).constructed = s.constructed := by
  unfold popEffect; split <;> rfl
@[simp] theorem popEffect_inputs (s : State) : (popEffect s).inputs = s.inputs := by
  unfold popEffect; split <;> rfl
@[simp] theorem popEffect_dataLost (s : State) : (popEffect s).dataLost = s.dataLost := by
  unfold popEffect; split <;> rfl
@[simp] theorem popEffect_rbit (s : State) : (popEffect s).rbit = false := by
  unfold popEffect; split <;> rfl

end Sys2Proof.Machine
end

