-- ==== Sys2Proof/Laws/Contents.lean ====
section
/-! SUPPORT. What the shared operations do to the frames in the occupied slots (R33). -/

namespace Sys2Proof.Machine

@[simp] theorem contents_length (s : State) : (contents s).length = s.count.toNat := by
  simp [contents]

@[simp] theorem contents_drive (d : Bus) (r : Bool) (s : State) : contents (drive d r s) = contents s := rfl

@[simp] theorem contents_clearLost (s : State) : contents (clearLost s) = contents s := rfl

@[simp] theorem contents_resetEdge (s : State) : contents (resetEdge s) = [] := rfl

/-- Evicting and removing take the same frame away. -/
theorem contents_evictOldest (s : State) : contents (evictOldest s) = contents (removeOldest s) := rfl

/-- Inserting into a buffer that is not full appends the frame (R85). -/
theorem contents_insertNewest {s : State} (hm : s.mem.wf = true) (hr : s.InRange) (hg : s.RingAligned)
    (hf : s.count.toNat < 100) (b : Bus) : contents (insertNewest b s) = contents s ++ [b] := by
  rw [inRange_iff] at hr
  simp only [State.RingAligned, cap_eq] at hg
  simp only [contents, insertNewest_count, count_add_one (show s.count.toNat < 127 by omega), List.range_succ, List.map_append,
    List.map_cons, List.map_nil, occupiedIndex, insertNewest_mem, insertNewest_head, cap_eq]
  refine congrArg₂ (· ++ ·) (List.map_congr_left fun k hk => ?_) ?_
  · have := List.mem_range.1 hk
    rw [readSlot_writeSlot_other hm hr.2.1 (by omega)]
  · rw [← hg, readSlot_writeSlot_same hm hr.2.1]

/-- Removing from a buffer that is not empty takes its first frame, the one at `head` (R90). -/
theorem contents_removeOldest {s : State} (hr : s.InRange) (hf : s.count.toNat ≠ 0) :
    contents s = oldestFrame s :: contents (removeOldest s) := by
  rw [inRange_iff] at hr
  simp only [contents, removeOldest_count, count_sub_one hf, occupiedIndex, removeOldest_mem, removeOldest_head, cap_eq,
    oldestFrame, nextIndex_toNat]
  obtain ⟨n, hn⟩ : ∃ n, s.count.toNat = n + 1 := ⟨s.count.toNat - 1, by omega⟩
  rw [hn, List.range_succ_eq_map, List.map_cons, List.map_map]
  congr 1
  · congr 1; omega
  · refine List.map_congr_left fun k _ => ?_
    simp only [Function.comp]
    congr 1; omega

end Sys2Proof.Machine
end

