-- ==== Sys2Proof/Laws/PerInstr.lean ====
section
/-! SUPPORT. Statements about every command, one lemma per constructor. -/

namespace Sys2Proof.Laws.OpcodeField

/-- The command word carries the command's opcode in `W[2:0]` and its operand in `W[90:3]` (R60), and the ports of that word
select the same row of the opcode table (R61). -/
def Statement (i : Instr) : Prop :=
  wordOp (encode i) = i.opcode ∧ wordDin (encode i) = i.operand ∧
    (decodePorts (wordOp (encode i)) (wordDin (encode i))).opcode = i.opcode

/-- The low three bits of `din ++ op` are `op`. -/
theorem wordOp_append (d : Bus) (o : Opcode) : wordOp (d ++ o) = o := by
  simpa [wordOp] using BitVec.extractLsb'_append_eq_right (a := d) (b := o)

/-- The other 88 bits of `din ++ op` are `din`. -/
theorem wordDin_append (d : Bus) (o : Opcode) : wordDin (d ++ o) = d := by
  simpa [wordDin] using BitVec.extractLsb'_append_eq_left (a := d) (b := o)

theorem of_ports {i : Instr} (h : (decodePorts i.opcode i.operand).opcode = i.opcode) : Statement i := by
  refine ⟨wordOp_append _ _, wordDin_append _ _, ?_⟩
  rw [encode, wordOp_append, wordDin_append, h]

theorem nop : Statement .nop := of_ports rfl
theorem push (f : Frame) : Statement (.push f) := of_ports rfl
theorem pop : Statement .pop := of_ports rfl
theorem clrlost : Statement .clrlost := of_ports rfl
theorem qempty : Statement .qempty := of_ports rfl
theorem qfull : Statement .qfull := of_ports rfl
theorem qlost : Statement .qlost := of_ports rfl
theorem reserved : Statement .reserved := of_ports rfl

end Sys2Proof.Laws.OpcodeField
end

