-- ==== Sys2Proof/Laws/Encoding.lean ====
section
/-! SUPPORT. The fields of a concatenation, for the frame encoding and the command word. -/

namespace Sys2Proof

/-- The bits of the right part. -/
theorem extract_append_right {w v : Nat} (x : BitVec w) (y : BitVec v) : (x ++ y).extractLsb' 0 v = y := by
  ext i hi
  simp [BitVec.getLsbD_append, hi]

/-- Bits of the left part. -/
theorem extract_append_left {w v : Nat} (x : BitVec w) (y : BitVec v) (start len start' : Nat) (h : start = start' + v) :
    (x ++ y).extractLsb' start len = x.extractLsb' start' len := by
  ext i hi
  subst h
  simp [BitVec.getLsbD_append, show ¬ (start' + v + i < v) by omega, show start' + v + i - v = start' + i by omega]

/-- The packed byte holds `length` above `port` (R49). -/
theorem packedByte_append (f : Frame) : packedByte f = f.length ++ f.port := by
  rw [packedByte]
  generalize f.length = l
  generalize f.port = p
  revert l p
  decide

/-- The eight payload bytes as a list. -/
theorem payload_toList (p : Vector Byte 8) : p.toList = [p[0], p[1], p[2], p[3], p[4], p[5], p[6], p[7]] := by
  refine List.ext_getElem (by simp) fun k hk _ => ?_
  have hk' : k < 8 := by simpa using hk
  match k, hk' with
  | 0, _ | 1, _ | 2, _ | 3, _ | 4, _ | 5, _ | 6, _ | 7, _ => rfl

end Sys2Proof
end

