-- ==== Sys2Proof/Laws/Step.lean ====
section
/-! SUPPORT. What one command and one step can do, said once. -/

namespace Sys2Proof.Machine

/-- The state that each command leaves where it answers one. -/
def effect : Instr → State → State
  | .nop, s => drive 0 false s
  | .push f, s => drive 0 false (pushEffect (encodeFrame f) s)
  | .pop, s => popEffect s
  | .clrlost, s => drive 0 false (clearLost s)
  | .qempty, s => drive 0 (isEmpty s) s
  | .qfull, s => drive 0 (isFull s) s
  | .qlost, s => drive 0 (isDataLost s) s
  | .reserved, s => drive 0 false s

/-- NOP answers in every state (R105). -/
theorem exec_nop (s : State) : exec .nop s = .next (effect .nop s) := rfl

/-- Every other command passes through the one edge that looks for R119 and R131. -/
theorem exec_command {i : Instr} (h : i ≠ .nop) (s : State) : exec i s = commandEdge s (effect i s) := by
  cases i <;> first | rfl | exact absurd rfl h

/-- A command in a ready state has its effect. -/
theorem exec_ready {s : State} (h : s.Ready) (i : Instr) : exec i s = .next (effect i s) := by
  by_cases hi : i = .nop
  · subst hi; rfl
  · rw [exec_command hi, commandEdge_ready h]

/-- All that a command can answer with a next state. -/
theorem exec_next {i : Instr} {s t : State} (h : exec i s = .next t) : t = effect i s ∧ (i = .nop ∨ s.Ready) := by
  by_cases hi : i = .nop
  · subst hi
    cases h
    exact ⟨rfl, .inl rfl⟩
  · rw [exec_command hi] at h
    exact ⟨(commandEdge_next h).2, .inr (commandEdge_next h).1⟩

@[simp] theorem effect_inputs (i : Instr) (s : State) : (effect i s).inputs = s.inputs := by
  cases i <;> simp [effect]

@[simp] theorem effect_constructed (i : Instr) (s : State) : (effect i s).constructed = s.constructed := by
  cases i <;> simp [effect]

/-- A step with no cycle presented. -/
theorem step_nil {s : State} (h : s.inputs = []) : step s = .refused .endOfRun := by
  simp [step, takeCycle, h]

/-- A step on the next cycle that the host presents. -/
theorem step_cons {s : State} {c : Cycle} {rest : List Cycle} (h : s.inputs = c :: rest) :
    step s = clockEdge c { s with inputs := rest } := by
  simp [step, takeCycle, h]

/-- All that a step can answer with a next state: it took a reset cycle or ran a command. -/
theorem step_next {s t : State} (h : step s = .next t) :
    ∃ c, s.inputs = c :: t.inputs ∧
      ((c.rst = true ∧ t = resetEdge { s with inputs := t.inputs }) ∨
        (c.rst = false ∧ exec (decodePorts c.op c.din) { s with inputs := t.inputs } = .next t)) := by
  cases hi : s.inputs with
  | nil => rw [step_nil hi] at h; cases h
  | cons c rest =>
    rw [step_cons hi, clockEdge] at h
    split at h
    · rename_i hr
      cases h
      exact ⟨c, rfl, .inl ⟨hr, rfl⟩⟩
    · rename_i hr
      have ht : t.inputs = rest := by rw [(exec_next h).1, effect_inputs]
      rw [ht]
      exact ⟨c, rfl, .inr ⟨by simpa using hr, h⟩⟩

/-- Placing a command word puts its cycle before those already waiting. -/
theorem withFetchWord_fits {nbits w : Nat} (h : w % 2 ^ nbits < 2 ^ Config.cmdWidth) (s : State) :
    s.withFetchWord nbits w = { s with inputs := wordCycle (BitVec.ofNat 91 (w % 2 ^ nbits)) :: s.inputs } := by
  simp only [State.withFetchWord, presentWord, if_pos h]

end Sys2Proof.Machine
end

