-- ==== Sys2Proof/Tests/Slice0.lean ====
section
/-! SUPPORT. Tests of the model against the encodings and vectors that the spec writes out, and a witness for the hypotheses
of each statement. Expected values come from spec/95_test_vectors (ids V-…, X…) and 30_encoding (R69). -/

namespace Sys2Proof.Tests

open Sys2Proof.Machine

/-! ### Helpers -/

/-- FA of 95_test_vectors. -/
def frameA : Frame := ⟨0x1ABC, #v[1, 2, 3, 4, 5, 6, 7, 8], 5, 8⟩

/-- FB of 95_test_vectors. -/
def frameB : Frame := ⟨0x0123, #v[0xDE, 0xAD, 0xBE, 0xEF, 0, 0, 0, 0], 0xA, 4⟩

/-- FM of 95_test_vectors. -/
def frameM : Frame := ⟨0xFFFF, #v[0xFF, 0xFF, 0xFF, 0xFF, 0xFF, 0xFF, 0xFF, 0xFF], 15, 15⟩

/-- FX of 95_test_vectors. -/
def frameX : Frame := ⟨0x0042, #v[0x11, 0x11, 0x11, 0x11, 0x11, 0x11, 0x11, 0x11], 15, 12⟩

/-- A state after a reset, with the registers and the memory given. -/
def at_ (m : Memory) (h t c : Index) (l : Bool) : State :=
  { State.reset with mem := m, head := h, tail := t, count := c, dataLost := l }

/-- The memory that holds one frame. -/
def holding (i : Nat) (f : Frame) : Memory := writeSlot [] i (encodeFrame f)

/-- The next state of an outcome. -/
def after : Host.Outcome State Fault Refusal → Option State
  | .next t => some t
  | .fault _ => none
  | .refused _ => none

/-- The four registers, in the order of 95_test_vectors. -/
def regs (s : State) : Index × Index × Index × Bool := (s.head, s.tail, s.count, s.dataLost)

/-- The outputs. -/
def outs (s : State) : Bus × Bool := (s.dout, s.rbit)

/-! ### Well-formedness -/

/-- R106: the reserved opcode is the term that the host's duty refuses; it is a well-formed command all the same (R62). -/
theorem test_issuable_refuses_reserved : Instr.reserved.issuable = false ∧ Instr.reserved.wf = true := by decide

/-- R66: the frame of all ones is well formed. -/
theorem test_wf_all_ones : (Instr.push frameM).wf = true ∧ (Instr.push frameM).issuable = true := by decide

/-- The canonical form refuses a zero cell, two cells out of order, a repeated address and an address past the last slot. -/
theorem test_memory_wf_refuses :
    Memory.wf [(3, 0)] = false ∧ Memory.wf [(4, 1), (3, 1)] = false ∧ Memory.wf [(3, 1), (3, 2)] = false ∧
      Memory.wf [(1100, 1)] = false ∧ Memory.wf [(1099, 1)] = true := by decide

/-- Writing the value that an unlisted address reads as removes the cell. -/
theorem test_memory_write_zero_removes : Memory.write [(3, 7), (5, 9)] 3 0 = [(5, 9)] := by decide

/-- R131: a POP before the first reset cycle breaks the boot duty, and so does the reserved opcode (log entry 10); NOP and
then reset keep it. -/
theorem test_bootOk :
    bootOk [commandCycle .pop] = false ∧ bootOk [commandCycle .nop, commandCycle .reserved] = false ∧
      bootOk [commandCycle .nop, resetCycle, commandCycle .pop] = true := by decide

/-- R73: an assembler line is refused for an identifier, byte, port or length out of range, for seven bytes, and for `$i`
outside REP. -/
theorem test_assembler_refuses :
    assembleLine none (.push (asmConst 0x10000) none none none) = none ∧
    assembleLine none (.push (asmConst 1) (some (List.replicate 8 (asmConst 256))) none none) = none ∧
    assembleLine none (.push (asmConst 1) (some (List.replicate 7 (asmConst 0))) none none) = none ∧
    assembleLine none (.push (asmConst 1) none (some (asmConst 16)) none) = none ∧
    assembleLine none (.push (asmConst 1) none none (some (asmConst 16))) = none ∧
    assembleLine none (.push (asmIndex 0) none none none) = none := by decide

/-- R73 and P2: `REP 2 { PUSH id=100+$i }` is the words 0x321 and 0x329. -/
theorem test_assembler_rep :
    assemble [.rep 2 [.push (asmIndex 100) none none none]] =
      some [wordCycle 0x321, wordCycle 0x329] := by decide

/-! ### Encoding: one word per row, its bits written out from R60, R61 and R64 -/

/-- R69, X3: the bytes and the bus value of FA. -/
theorem test_encode_frameA :
    encodeFrame frameA = 0x8508070605040302011ABC ∧
      serialise frameA = [0xBC, 0x1A, 0x01, 0x02, 0x03, 0x04, 0x05, 0x06, 0x07, 0x08, 0x85] := by decide

/-- The `encode` column of 95_test_vectors. -/
theorem test_encode_frames :
    encodeFrame frameB = 0x4A00000000EFBEADDE0123 ∧ encodeFrame frameM = 0xFFFFFFFFFFFFFFFFFFFFFF ∧
      encodeFrame frameX = 0xCF11111111111111110042 ∧ encodeFrame emptyFrame = 0 := by decide

/-- X1. -/
theorem test_decode_frame :
    decodeFrame 0x123456789ABCDEF0123456 =
      ⟨0x3456, #v[0x12, 0xF0, 0xDE, 0xBC, 0x9A, 0x78, 0x56, 0x34], 2, 1⟩ := by decide

/-- R61: op 000. -/
theorem test_decode_nop : decode (0x0000000000000000000000#88 ++ 0b000#3) = .nop := by decide

/-- R60, R61, R64: length 1000, port 0101, payload bytes 7 down to 0, identifier 0001101010111100, op 001. -/
theorem test_decode_push :
    decode (0b1000#4 ++ 0b0101#4 ++ 0b00001000#8 ++ 0b00000111#8 ++ 0b00000110#8 ++ 0b00000101#8 ++ 0b00000100#8 ++
      0b00000011#8 ++ 0b00000010#8 ++ 0b00000001#8 ++ 0b0001101010111100#16 ++ 0b001#3) = .push frameA := by decide

/-- X6. -/
theorem test_decode_push_word : decodeTableWord 91 0x4284038302820181008D5E1 = some (.push frameA) := by decide

/-- R61: op 010, with `din` ignored (R63). -/
theorem test_decode_pop : decode (0xFFFFFFFFFFFFFFFFFFFFFF#88 ++ 0b010#3) = .pop := by decide

/-- R61: op 011. -/
theorem test_decode_clrlost : decode (0x0000000000000000000001#88 ++ 0b011#3) = .clrlost := by decide

/-- R61: op 100. -/
theorem test_decode_qempty : decode (0x8000000000000000000000#88 ++ 0b100#3) = .qempty := by decide

/-- R61: op 101. -/
theorem test_decode_qfull : decode (0x0000000000000000000000#88 ++ 0b101#3) = .qfull := by decide

/-- R61: op 110. -/
theorem test_decode_qlost : decode (0x0000000000000000000000#88 ++ 0b110#3) = .qlost := by decide

/-- R61: op 111. -/
theorem test_decode_reserved : decode (0x0000000000000000000000#88 ++ 0b111#3) = .reserved := by decide

/-- X8: the words with `din = 0`, from the encoder. -/
theorem test_encode_words :
    encode .nop = 0x0 ∧ encode .pop = 0x2 ∧ encode .clrlost = 0x3 ∧ encode .qempty = 0x4 ∧ encode .qfull = 0x5 ∧
      encode .qlost = 0x6 ∧ encode .reserved = 0x7 ∧ encode (.push frameA) = 0x4284038302820181008D5E1 := by decide

/-- A number with bit 91 set is no command word (R60). -/
theorem test_decode_too_wide : decodeNumber (2 ^ 91) = .error .tooWide := by rfl

/-- `withFetchWord` places the word where the very next step after reset runs it. -/
theorem test_withFetchWord_runs :
    (after (step (State.reset.withFetchWord 91 0x4284038302820181008D5E1))).map regs = some (0, 1, 1, false) := by decide

/-! ### Commands: one step each, from the vectors -/

/-- V-NO1. -/
theorem test_nop : (after (exec .nop (at_ [] 13 20 7 true))).map (fun t => (regs t, outs t)) = some ((13, 20, 7, true), (0, false)) := by
  decide

/-- V-RS1. -/
theorem test_reserved : (after (exec .reserved (at_ [] 13 20 7 true))).map (fun t => (regs t, outs t)) = some ((13, 20, 7, true), (0, false)) := by
  decide

/-- V-PU3: full, `head` and `tail` wrap, the oldest frame's slot is written, the flag is set. -/
theorem test_push_full_wraps :
    (after (exec (.push frameB) (at_ (holding 99 frameA) 99 99 100 false))).map
      (fun t => (regs t, outs t, readSlot t.mem 99)) = some ((0, 0, 100, true), (0, false), encodeFrame frameB) := by decide

/-- V-PU5: count 99 to 100 is no overflow. -/
theorem test_push_to_full :
    (after (exec (.push frameA) (at_ [] 20 19 99 false))).map (fun t => (regs t, readSlot t.mem 19)) =
      some ((20, 20, 100, false), encodeFrame frameA) := by decide

/-- V-PO4: `head` wraps. -/
theorem test_pop_wraps :
    (after (exec .pop (at_ (holding 99 frameB) 99 2 3 false))).map (fun t => (regs t, outs t)) =
      some ((0, 2, 2, false), (encodeFrame frameB, false)) := by decide

/-- V-PO2: an empty POP gives the sentinel, not the stale frame. -/
theorem test_pop_empty_stale :
    (after (exec .pop (at_ (holding 57 frameB) 57 57 0 true))).map (fun t => (regs t, outs t)) =
      some ((57, 57, 0, true), (0, false)) := by decide

/-- V-CL1. -/
theorem test_clrlost_full :
    (after (exec .clrlost (at_ [] 5 5 100 true))).map (fun t => (regs t, outs t)) = some ((5, 5, 100, false), (0, false)) := by decide

/-- V-QE4. -/
theorem test_qempty_empty_lost :
    (after (exec .qempty (at_ [] 12 12 0 true))).map (fun t => (regs t, outs t)) = some ((12, 12, 0, true), (0, true)) := by decide

/-- V-QE2. -/
theorem test_qempty_one :
    (after (exec .qempty (at_ (holding 0 frameA) 0 1 1 false))).map outs = some (0, false) := by decide

/-- V-QF2: 99 is not full. -/
theorem test_qfull_99 : (after (exec .qfull (at_ [] 5 4 99 false))).map outs = some (0, false) := by decide

/-- V-QF3. -/
theorem test_qfull_100 : (after (exec .qfull (at_ [] 5 5 100 false))).map outs = some (0, true) := by decide

/-- V-QL3: the flag survives draining, and reading does not clear it. -/
theorem test_qlost_drained :
    (after (exec .qlost (at_ [] 8 8 0 true))).map (fun t => (regs t, outs t)) = some ((8, 8, 0, true), (0, true)) := by decide

/-- V-RT1: reset beats PUSH; no slot is written. -/
theorem test_reset_beats_push :
    (after (clockEdge ⟨true, 0b001, encodeFrame frameA⟩ (at_ [] 13 20 7 true))).map (fun t => (regs t, outs t, t.mem)) =
      some ((0, 0, 0, false), (0, false), []) := by decide

/-- V-RT2: reset beats POP; the slot keeps its frame. -/
theorem test_reset_beats_pop :
    (after (clockEdge ⟨true, 0b010, 0⟩ (at_ (holding 0 frameA) 0 1 1 false))).map (fun t => (regs t, outs t, readSlot t.mem 0)) =
      some ((0, 0, 0, false), (0, false), encodeFrame frameA) := by decide

/-- V-PR1: before the first reset a POP is refused. -/
theorem test_pop_before_reset :
    exec .pop { at_ [] 0 0 0 false with constructed := false } = .refused .beforeFirstReset := by rfl

/-- R119: a count of 101 faults. -/
theorem test_illegal_count_faults : exec .qlost (at_ [] 0 0 101 false) = .fault .registerEncoding := by rfl

/-! ### Witnesses: states and operands that meet the hypotheses of the statements, clause by clause -/

theorem witness_SerialisationLayout : (7 < 8 ∧ 0 < 8) ∧ (10 < 11 ∧ 0 < 11) := by decide

theorem witness_OnlyPushReadsDin :
    (0b111#3 : Opcode) ≠ 0b001 ∧ (0b000#3 : Opcode) ≠ 0b001 ∧ Instr.reserved.opcode ≠ 0b001 := by decide

theorem witness_DecodeEncodeAgree : (Instr.push frameM).wf = true ∧ Instr.reserved.wf = true := by decide

theorem witness_EncodeDecodeAgree : wordOp 0x89 = 0b001 ∧ wordOp 0x7FFFFFFFFFFFFFFFFFFFFFF ≠ 0b001 := by decide

theorem witness_AssemblerLines_range : 65536 ≤ 65536 := by decide

theorem witness_AssemblerLines_rep :
    ∀ j < 2, assembleLines (some j) [.push (asmIndex 0) none none none] = some [wordCycle (BitVec.ofNat 91 (8 * j + 1))] := by
  decide

theorem witness_ready_reset : State.reset.Ready := by decide

theorem witness_ready_empty_lost : (at_ [] 99 99 0 true).Ready ∧ (at_ [] 99 99 0 true).mem.wf = true := by decide

/-- For `ReservedActsAsNop`, `QueriesAnswer`, `ClrlostClearsFlag`, `PushStoresFrame` and `PopReturnsOldest`: a ready state with a
full, one with a nearly full and one with an empty buffer. -/
theorem witness_PushStoresFrame_full :
    (at_ (holding 99 frameA) 99 99 100 false).Ready ∧ (at_ (holding 99 frameA) 99 99 100 false).mem.wf = true ∧
      (at_ (holding 99 frameA) 99 99 100 false).count.toNat = 100 ∧ 98 < 100 ∧
      98 ≠ (at_ (holding 99 frameA) 99 99 100 false).tail.toNat := by decide

theorem witness_PushStoresFrame_notFull :
    (at_ [] 20 19 99 false).Ready ∧ (at_ [] 20 19 99 false).mem.wf = true ∧ (at_ [] 20 19 99 false).count.toNat ≠ 100 := by decide

theorem witness_PopReturnsOldest_empty : (at_ [] 57 57 0 true).Ready ∧ (at_ [] 57 57 0 true).count.toNat = 0 := by decide

theorem witness_PopReturnsOldest_one :
    (at_ (holding 99 frameB) 99 0 1 false).Ready ∧ (at_ (holding 99 frameB) 99 0 1 false).count.toNat ≠ 0 := by decide

theorem witness_IndexIncrementIsModulo :
    (99#7 : Index).toNat < 100 ∧ (99#7 : Index).toNat = 99 ∧ (98#7 : Index).toNat < 99 := by decide

/-- For `IdleAndQueryFrame` and the first clause of `CommandIdempotency`: each of its commands answers a next state. -/
theorem witness_IdleAndQueryFrame :
    (after (exec .nop (at_ [] 5 5 100 true))).isSome ∧ (after (exec .reserved (at_ [] 5 5 100 true))).isSome ∧
    (after (exec .qempty (at_ [] 5 5 100 true))).isSome ∧ (after (exec .qfull (at_ [] 5 5 100 true))).isSome ∧
    (after (exec .qlost (at_ [] 5 5 100 true))).isSome := by decide

/-- For `ClrlostFrame` and the first clause of `CommandIdempotency`. -/
theorem witness_ClrlostFrame : ∃ t, exec .clrlost (at_ [] 5 5 100 true) = .next t := ⟨_, rfl⟩

theorem witness_PopFrame : ∃ t, exec .pop (at_ (holding 99 frameB) 99 0 1 false) = .next t := ⟨_, rfl⟩

theorem witness_PushFrame :
    (at_ [] 20 99 79 false).mem.wf = true ∧ (∃ t, exec (.push frameA) (at_ [] 20 99 79 false) = .next t) ∧
      (at_ [] 20 99 79 false).count.toNat ≠ 100 ∧ 1088 < pushAddress (at_ [] 20 99 79 false) ∧
      pushAddress (at_ [] 20 99 79 false) + 11 ≤ 1100 :=
  ⟨by decide, ⟨_, rfl⟩, by decide, by decide, by decide⟩

theorem witness_StepRunsDecodedCommand :
    ({ State.reset with inputs := [commandCycle .pop] } : State).inputs = commandCycle .pop :: [] ∧
      (commandCycle .pop).rst = false ∧ decodePorts (commandCycle .pop).op (commandCycle .pop).din = .pop ∧
      Instr.pop.wf = true := by decide

theorem witness_StepRunsDecodedCommand_word : decodeTableWord 91 0x7 = some .reserved := by decide

theorem witness_StepTakesOneCycle :
    (∃ t, step { State.reset with inputs := [commandCycle .pop] } = .next t) ∧ State.reset.inputs = [] := ⟨⟨_, rfl⟩, rfl⟩

theorem witness_EveryCycleCompletes :
    ({ State.reset with inputs := [commandCycle .pop, resetCycle] } : State).Ready ∧
      2 ≤ ({ State.reset with inputs := [commandCycle .pop, resetCycle] } : State).inputs.length := by decide

theorem witness_OutOfRangeRegisterFaults :
    Instr.qlost ≠ .nop ∧ 100 ≤ (at_ [] 100 0 0 false).head.toNat ∧ 100 ≤ (at_ [] 0 127 0 false).tail.toNat ∧
      101 ≤ (at_ [] 0 0 101 false).count.toNat := by decide

theorem witness_BeforeFirstReset :
    ({ at_ [] 99 99 100 false with constructed := false } : State).constructed = false ∧ Instr.reserved ≠ .nop ∧
      ({ at_ [] 99 99 100 false with constructed := false } : State).InRange ∧
      ¬ ({ at_ [] 100 99 100 false with constructed := false } : State).InRange := by decide

/-- For `BootDutyIsExact`: a list that keeps the duty and one that does not. -/
theorem witness_BootDutyIsExact :
    ({ at_ [] 0 0 0 false with constructed := false, inputs := [resetCycle, commandCycle .pop] } : State).constructed = false ∧
      bootOk [resetCycle, commandCycle .pop] = true ∧ bootOk [commandCycle .pop, resetCycle] = false := by decide

theorem witness_ResetCycleResets :
    ({ at_ [] 4 4 100 true with inputs := [⟨true, 0b011, 0⟩] } : State).inputs = ⟨true, 0b011, 0⟩ :: [] ∧
      (⟨true, 0b011, 0⟩ : Machine.Cycle).rst = true ∧ 99 < 100 := by decide

theorem witness_HeldResetIsOneReset :
    (∀ d ∈ [resetCycle, (⟨true, 0b001, 5⟩ : Machine.Cycle)], d.rst = true) ∧ resetCycle.rst = true := by decide

theorem witness_DataLostWriters_clears :
    (∃ t, step { at_ [] 5 5 100 true with inputs := [commandCycle .clrlost] } = .next t) ∧
      clearsNext { at_ [] 5 5 100 true with inputs := [commandCycle .clrlost] } = true := ⟨⟨_, rfl⟩, by decide⟩

theorem witness_DataLostWriters_overwrites :
    (∃ t, step { at_ [] 5 5 100 false with inputs := [commandCycle (.push frameA)] } = .next t) ∧
      clearsNext { at_ [] 5 5 100 false with inputs := [commandCycle (.push frameA)] } = false ∧
      overwritesNext { at_ [] 5 5 100 false with inputs := [commandCycle (.push frameA)] } = true :=
  ⟨⟨_, rfl⟩, by decide, by decide⟩

theorem witness_DataLostWriters_keeps :
    (∃ t, step { at_ [] 5 4 99 true with inputs := [commandCycle (.push frameA)] } = .next t) ∧
      clearsNext { at_ [] 5 4 99 true with inputs := [commandCycle (.push frameA)] } = false ∧
      overwritesNext { at_ [] 5 4 99 true with inputs := [commandCycle (.push frameA)] } = false :=
  ⟨⟨_, rfl⟩, by decide, by decide⟩

theorem witness_OnlyPushWritesSlots_push :
    (at_ [] 5 99 94 false).mem.wf = true ∧
      (∃ t, step { at_ [] 5 99 94 false with inputs := [commandCycle (.push frameA)] } = .next t) ∧
      pushesNext { at_ [] 5 99 94 false with inputs := [commandCycle (.push frameA)] } = true :=
  ⟨by decide, ⟨_, rfl⟩, by decide⟩

theorem witness_OnlyPushWritesSlots_other :
    (∃ t, step { at_ [] 5 5 100 false with inputs := [resetCycle] } = .next t) ∧
      pushesNext { at_ [] 5 5 100 false with inputs := [⟨true, 0b001, 0⟩] } = false := ⟨⟨_, rfl⟩, by decide⟩

theorem witness_OutputsZeroUnlessDriven :
    (∃ t, step { at_ [] 5 5 100 true with inputs := [commandCycle .qfull] } = .next t) ∧
      presentsNext 0b010 { at_ [] 5 5 100 true with inputs := [commandCycle .qfull] } = false ∧
      (∃ t, step { at_ (holding 5 frameA) 5 5 100 true with inputs := [commandCycle .pop] } = .next t) ∧
      presentsNext 0b100 { at_ [] 5 5 100 true with inputs := [commandCycle .pop] } = false ∧
      presentsNext 0b101 { at_ [] 5 5 100 true with inputs := [commandCycle .pop] } = false ∧
      presentsNext 0b110 { at_ [] 5 5 100 true with inputs := [commandCycle .pop] } = false :=
  ⟨⟨_, rfl⟩, by decide, ⟨_, rfl⟩, by decide, by decide, by decide⟩

theorem witness_CommandIdempotency_pop :
    (at_ [] 5 5 0 false).count.toNat = 0 ∧ (∃ t, exec .pop (at_ [] 5 5 0 false) = .next t) ∧
      (at_ [] 5 7 2 false).count.toNat ≥ 2 ∧ (∃ t, exec .pop (at_ [] 5 7 2 false) = .next t) :=
  ⟨by decide, ⟨_, rfl⟩, by decide, ⟨_, rfl⟩⟩

theorem witness_CommandIdempotency_push : ∃ t, exec (.push frameA) (at_ [] 99 99 100 false) = .next t := ⟨_, rfl⟩

theorem witness_FullPushDropsOldest :
    (at_ (holding 99 frameA) 99 99 100 false).Inv ∧ (at_ (holding 99 frameA) 99 99 100 false).Ready ∧
      (at_ (holding 99 frameA) 99 99 100 false).count.toNat = 100 := by decide

theorem witness_PopAfterPushReturnsFrame :
    (at_ [] 99 99 0 true).Inv ∧ (at_ [] 99 99 0 true).Ready ∧ (at_ [] 99 99 0 true).count.toNat = 0 := by decide

theorem witness_SentinelIsAmbiguous :
    (at_ [] 3 3 0 false).Ready ∧ (at_ [] 3 4 1 false).Ready ∧ (at_ [] 3 3 0 false).count.toNat = 0 ∧
      (at_ [] 3 4 1 false).count.toNat ≠ 0 ∧ oldestFrame (at_ [] 3 4 1 false) = 0 := by decide

theorem witness_LossFlagSetAndCleared :
    (at_ [] 99 99 100 false).Ready ∧ (at_ [] 99 99 100 false).count.toNat = 100 := by decide

theorem witness_StepKeepsInv :
    ({ at_ (holding 99 frameA) 99 99 100 false with inputs := [commandCycle (.push frameB)] } : State).Inv ∧
      ∃ t, step { at_ (holding 99 frameA) 99 99 100 false with inputs := [commandCycle (.push frameB)] } = .next t :=
  ⟨by decide, ⟨_, rfl⟩⟩

theorem witness_RegistersStayInRange :
    ({ at_ [] 99 99 100 false with inputs := [commandCycle .qfull] } : State).Inv ∧
      (∃ t, run 1 { at_ [] 99 99 100 false with inputs := [commandCycle .qfull] } = .next t ∧ t.count.toNat = 100) ∧
      (∃ t, run 1 { at_ [] 99 99 0 false with inputs := [commandCycle .pop] } = .next t ∧ t.count.toNat = 0) :=
  ⟨by decide, ⟨_, rfl, by decide⟩, ⟨_, rfl, by decide⟩⟩

/-- For `StepRefinesFifo` and `RunShowsFifo`. -/
theorem witness_StepRefinesFifo :
    ({ at_ (holding 99 frameA) 99 0 1 false with inputs := [commandCycle .pop] } : State).Inv ∧
      ({ at_ (holding 99 frameA) 99 0 1 false with inputs := [commandCycle .pop] } : State).Ready ∧
      ({ at_ (holding 99 frameA) 99 0 1 false with inputs := [commandCycle .pop] } : State).inputs =
        commandCycle .pop :: [] := by decide

/-- Two states that differ in the unoccupied slot 98. -/
theorem witness_UnoccupiedSlotsUnobservable :
    (at_ (holding 99 frameA) 99 0 1 false).Inv ∧
      (at_ (writeSlot (holding 99 frameA) 98 7) 99 0 1 false).Inv ∧
      (at_ (holding 99 frameA) 99 0 1 false).mem ≠ (at_ (writeSlot (holding 99 frameA) 98 7) 99 0 1 false).mem ∧
      (at_ (holding 99 frameA) 99 0 1 false).SameButUnoccupied (at_ (writeSlot (holding 99 frameA) 98 7) 99 0 1 false) :=
  ⟨by decide, by decide, by decide, ⟨rfl, rfl, rfl, rfl, rfl, rfl, by decide⟩⟩

theorem witness_LossFlagRecordsOverwrite :
    (at_ [] 99 99 100 false).dataLost = false ∧
      ∃ t, run 1 { at_ [] 99 99 100 false with inputs := [commandCycle (.push frameA)] } = .next t ∧ t.dataLost = true :=
  ⟨rfl, ⟨_, rfl, by decide⟩⟩

theorem witness_FramesAreConserved :
    ({ State.reset with inputs := [commandCycle (.push frameA)] } : State).Ready ∧
      (∀ j < 1, ∀ u, run j { State.reset with inputs := [commandCycle (.push frameA)] } = .next u → resetsNext u = false) ∧
      (∃ t, run 1 { State.reset with inputs := [commandCycle (.push frameA)] } = .next t) ∧
      ({ State.reset with inputs := [commandCycle (.push frameA)] } : State).count.toNat = 0 := by
  refine ⟨by decide, fun j hj u hu => ?_, ⟨_, rfl⟩, by decide⟩
  obtain rfl : j = 0 := by omega
  cases hu
  rfl

/-- For `PushesFromReset` and `PopsReturnPushOrder`: a memory with a stale frame, and lists of the three lengths. -/
theorem witness_PopsReturnPushOrder :
    (at_ (holding 57 frameB) 57 57 0 true).mem.wf = true ∧ (List.replicate 99 frameA).length < 100 ∧
      (List.replicate 101 frameA).length = 101 ∧ (List.replicate 150 frameA).length = 150 := by decide

end Sys2Proof.Tests
end

section
/-! The invariant kept by each operation: the ring registers (R29, R30, R32) and the canonical memory. -/

namespace Sys2Proof.Machine

/-- The part of the invariant that speaks of `head`, `tail` and `count` alone (R29, R30, R32). -/
abbrev State.Ring (s : State) : Prop :=
  s.InRange ∧ s.RingAligned

/-- From the first reset on, the invariant is the canonical memory and the ring of the registers. -/
theorem inv_iff_of_ready {s : State} (hr : s.Ready) : s.Inv ↔ s.mem.wf = true ∧ s.Ring := by
  simp only [State.Inv, hr.1, true_implies]

theorem insertNewest_ring {s : State} (h : s.Ring) (hf : s.count.toNat < 100) (b : Bus) : (insertNewest b s).Ring := by
  obtain ⟨⟨hh, ht, hc⟩, hg⟩ := h
  have hcount := count_add_one (show s.count.toNat < 127 by omega)
  simp only [State.Ring, State.InRange, State.RingAligned, insertNewest_head, insertNewest_tail, insertNewest_count,
    nextIndex_toNat, hcount, cap_eq] at hh hg ⊢
  omega

theorem removeOldest_ring {s : State} (h : s.Ring) (hf : s.count.toNat ≠ 0) : (removeOldest s).Ring := by
  obtain ⟨⟨hh, ht, hc⟩, hg⟩ := h
  simp only [State.Ring, State.InRange, State.RingAligned, removeOldest_head, removeOldest_tail, removeOldest_count,
    nextIndex_toNat, count_sub_one hf, cap_eq] at hh ht hc hg ⊢
  omega

/-- Evicting moves the registers as removing does. -/
theorem evictOldest_ring {s : State} (h : s.Ring) (hf : s.count.toNat ≠ 0) : (evictOldest s).Ring :=
  removeOldest_ring h hf

/-- The eviction of a PUSH on a full buffer makes room for one frame. -/
theorem evictOldest_count_of_full {s : State} (hf : s.count.toNat = 100) : (evictOldest s).count.toNat = 99 := by
  rw [evictOldest_count, count_sub_one (by omega), hf]

theorem pushEffect_ring {s : State} (h : s.Ring) (b : Bus) : (pushEffect b s).Ring := by
  by_cases hf : s.count.toNat = 100
  · rw [pushEffect_full hf]
    exact insertNewest_ring (evictOldest_ring h (by omega)) (by rw [evictOldest_count_of_full hf]; omega) b
  · obtain ⟨-, -, hc⟩ := (inRange_iff s).mp h.1
    rw [pushEffect_notFull hf]
    exact insertNewest_ring h (by omega) b

theorem popEffect_ring {s : State} (h : s.Ring) : (popEffect s).Ring := by
  by_cases hf : s.count.toNat = 0
  · rw [popEffect_empty hf]
    exact h
  · rw [popEffect_notEmpty hf]
    exact removeOldest_ring h hf

/-- Only PUSH and POP move the registers, and both keep them a ring. -/
theorem effect_ring (i : Instr) {s : State} (h : s.Ring) : (effect i s).Ring := by
  cases i with
  | push f => exact pushEffect_ring h (encodeFrame f)
  | pop => exact popEffect_ring h
  | nop | clrlost | qempty | qfull | qlost | reserved => exact h

/-- Only PUSH writes a slot, a valid one, so every command keeps the canonical memory. -/
theorem effect_mem_wf (i : Instr) {s : State} (hr : s.InRange) (hm : s.mem.wf = true) : (effect i s).mem.wf = true := by
  cases i with
  | push f => simpa only [effect, drive_mem, pushEffect_mem] using writeSlot_wf (encodeFrame f) hr.2.1 hm
  | pop => simpa only [effect, popEffect_mem] using hm
  | nop | clrlost | qempty | qfull | qlost | reserved => exact hm

theorem resetEdge_ring (s : State) : (resetEdge s).Ring := by
  simp [State.Ring, State.InRange, State.RingAligned]

end Sys2Proof.Machine
end

section
/-! The queue that a state stands for (R33), moved by each operation as the bounded queue moves. -/

namespace Sys2Proof.Machine

/-- The frames of the queue are the occupied slots. -/
@[simp] theorem toFifo_frames (s : State) : s.toFifo.frames = contents s := rfl

@[simp] theorem toFifo_drive (d : Bus) (r : Bool) (s : State) : (drive d r s).toFifo = s.toFifo := rfl

/-- The sentinel's encoding (R68). -/
theorem encodeFrame_emptyFrame : encodeFrame emptyFrame = 0 := by decide

theorem contents_eq_nil_of_empty {s : State} (h : s.count.toNat = 0) : contents s = [] :=
  List.eq_nil_of_length_eq_zero ((contents_length s).trans h)

/-- The query QEMPTY asks whether the queue holds no frame (R80). -/
theorem contents_isEmpty (s : State) : (contents s).isEmpty = isEmpty s := by
  rw [Bool.eq_iff_iff, isEmpty_iff, List.isEmpty_iff_length_eq_zero, contents_length]

/-- A PUSH appends to the queue; on a full one the oldest frame goes, and the flag is set (R85, R88). -/
theorem toFifo_pushEffect {s : State} (hm : s.mem.wf = true) (h : s.Ring) (b : Bus) :
    (pushEffect b s).toFifo = s.toFifo.append b := by
  by_cases hf : s.count.toNat = 100
  · have hne : s.count.toNat ≠ 0 := by omega
    obtain ⟨hr, hg⟩ := evictOldest_ring h hne
    have hroom : (evictOldest s).count.toNat < 100 := by rw [evictOldest_count_of_full hf]; omega
    have hcontents := contents_insertNewest (s := evictOldest s) hm hr hg hroom b
    rw [contents_evictOldest] at hcontents
    simp [pushEffect_full hf, Fifo.append, State.toFifo, hf, hcontents, contents_removeOldest h.1 hne]
  · obtain ⟨hr, hg⟩ := h
    have hroom : s.count.toNat < 100 := by have := ((inRange_iff s).mp hr).2.2; omega
    simp [pushEffect_notFull hf, Fifo.append, State.toFifo, hf, contents_insertNewest hm hr hg hroom b]

/-- A POP takes the queue's oldest frame and drives it; an empty queue drives the sentinel and stays (R90). -/
theorem toFifo_command_pop {s : State} (hr : s.InRange) :
    s.toFifo.command .pop = ((popEffect s).toFifo, ⟨(popEffect s).dout, (popEffect s).rbit⟩) := by
  by_cases hf : s.count.toNat = 0
  · simp [Fifo.command, popEffect_empty hf, contents_eq_nil_of_empty hf, encodeFrame_emptyFrame]
  · simp [Fifo.command, popEffect_notEmpty hf, contents_removeOldest hr hf, State.toFifo]

/-- Each command moves the queue, and drives the ports, as the bounded queue's command does. -/
theorem toFifo_command {s : State} (hm : s.mem.wf = true) (h : s.Ring) (i : Instr) :
    s.toFifo.command i = ((effect i s).toFifo, ⟨(effect i s).dout, (effect i s).rbit⟩) := by
  cases i with
  | push f => simp [Fifo.command, effect, toFifo_pushEffect hm h]
  | pop => exact toFifo_command_pop h.1
  | qempty => simp [Fifo.command, effect, contents_isEmpty]
  | qfull => simp [Fifo.command, effect, isFull]
  | nop | clrlost | qlost | reserved => rfl

end Sys2Proof.Machine
end

section
/-! One step of a ready state: it completes, takes its cycle, and is a cycle of the bounded queue. -/

namespace Sys2Proof.Machine

/-- The state that a cycle leaves where it answers one: reset goes before the command (R115, R125). -/
def cycleEffect (c : Cycle) (s : State) : State :=
  if c.rst then resetEdge s else effect (decodePorts c.op c.din) s

@[simp] theorem cycleEffect_inputs (c : Cycle) (s : State) : (cycleEffect c s).inputs = s.inputs := by
  unfold cycleEffect; split <;> simp

/-- In a ready state every cycle completes with its effect. -/
theorem clockEdge_ready {s : State} (h : s.Ready) (c : Cycle) : clockEdge c s = .next (cycleEffect c s) := by
  unfold clockEdge cycleEffect
  split
  · rfl
  · exact exec_ready h _

/-- A step of a ready state is the effect of the next cycle, with that cycle taken. -/
theorem step_ready {s : State} {c : Cycle} {rest : List Cycle} (h : s.Ready) (hi : s.inputs = c :: rest) :
    step s = .next (cycleEffect c { s with inputs := rest }) := by
  rw [step_cons hi]
  exact clockEdge_ready (s := { s with inputs := rest }) h c

/-- No cycle takes the machine back before the first reset. -/
theorem cycleEffect_constructed {s : State} (h : s.constructed = true) (c : Cycle) :
    (cycleEffect c s).constructed = true := by
  unfold cycleEffect; split <;> simp [h]

theorem cycleEffect_ring {s : State} (h : s.Ring) (c : Cycle) : (cycleEffect c s).Ring := by
  unfold cycleEffect
  split
  · exact resetEdge_ring s
  · exact effect_ring _ h

theorem cycleEffect_mem_wf {s : State} (hr : s.InRange) (hm : s.mem.wf = true) (c : Cycle) :
    (cycleEffect c s).mem.wf = true := by
  unfold cycleEffect
  split
  · exact hm
  · exact effect_mem_wf _ hr hm

/-- Every cycle of a ready state that meets the invariant leaves such a state. -/
theorem cycleEffect_inv_ready {s : State} (hinv : s.Inv) (hr : s.Ready) (c : Cycle) :
    (cycleEffect c s).Inv ∧ (cycleEffect c s).Ready := by
  obtain ⟨hm, hring⟩ := (inv_iff_of_ready hr).mp hinv
  have hready : (cycleEffect c s).Ready := ⟨cycleEffect_constructed hr.1 c, (cycleEffect_ring hring c).1⟩
  exact ⟨(inv_iff_of_ready hready).mpr ⟨cycleEffect_mem_wf hr.2 hm c, cycleEffect_ring hring c⟩, hready⟩

/-- Each cycle is a cycle of the bounded queue, with the same outputs. -/
theorem toFifo_cycle {s : State} (hinv : s.Inv) (hr : s.Ready) (c : Cycle) :
    s.toFifo.cycle c = ((cycleEffect c s).toFifo, ⟨(cycleEffect c s).dout, (cycleEffect c s).rbit⟩) := by
  obtain ⟨hm, hring⟩ := (inv_iff_of_ready hr).mp hinv
  unfold Fifo.cycle cycleEffect
  split
  · rfl
  · exact toFifo_command hm hring _

/-- The outputs of the next `n + 1` cycles are those of the next one and of the `n` after it (R10). -/
theorem observe_succ {s t : State} (h : step s = .next t) (n : Nat) :
    observe (n + 1) s = ⟨t.dout, t.rbit⟩ :: observe n t := by
  rw [observe, h]

/-- `RunShowsFifo` with the list of cycles as a variable of its own, for the induction over it. -/
theorem observe_eq_toFifo_observe : ∀ (cs : List Cycle) {s : State}, s.Inv → s.Ready → s.inputs = cs →
    observe cs.length s = s.toFifo.observe cs
  | [], _, _, _, _ => rfl
  | c :: rest, s, hinv, hr, hi => by
    have hfifo : s.toFifo.cycle c = _ := toFifo_cycle (s := { s with inputs := rest }) hinv hr c
    obtain ⟨hinv', hr'⟩ := cycleEffect_inv_ready (s := { s with inputs := rest }) hinv hr c
    rw [List.length_cons, observe_succ (step_ready hr hi), Fifo.observe, hfifo,
      observe_eq_toFifo_observe rest hinv' hr' (cycleEffect_inputs c _)]

/-- Settles O43, by induction over the presented cycles: each step is a cycle of the bounded queue and keeps the invariant. -/
theorem runShowsFifo : Obligations.RunShowsFifo := by
  unfold Obligations.RunShowsFifo
  intro s hinv hr
  exact observe_eq_toFifo_observe s.inputs hinv hr rfl

/-- Settles O23, from what a step can do at all and from the step with no cycle presented. -/
theorem stepTakesOneCycle : Obligations.StepTakesOneCycle := by
  unfold Obligations.StepTakesOneCycle
  refine ⟨fun s t h => ?_, fun s h => step_nil h⟩
  obtain ⟨c, hi, -⟩ := step_next h
  exact ⟨c, hi⟩

/-- A step whose next cycle has `rst = 0` runs the command of its ports. -/
theorem step_command {s : State} {c : Cycle} {rest : List Cycle} (hi : s.inputs = c :: rest) (hc : c.rst = false) :
    step s = exec (decodePorts c.op c.din) { s with inputs := rest } := by
  simp [step_cons hi, clockEdge, hc]

/-- A table word with a command is a command word that decodes to it (R60, R62). -/
theorem decodeTableWord_eq_some {nbits w : Nat} {i : Instr} (h : decodeTableWord nbits w = some i) :
    w % 2 ^ nbits < 2 ^ Config.cmdWidth ∧ decode (BitVec.ofNat 91 (w % 2 ^ nbits)) = i := by
  unfold decodeTableWord decodeNumber at h
  by_cases hw : w % 2 ^ nbits < 2 ^ Config.cmdWidth
  · rw [if_pos hw] at h
    exact ⟨hw, Option.some.inj h⟩
  · rw [if_neg hw] at h
    cases h

/-- The word that `withFetchWord` places is the next to run (R37). -/
theorem step_withFetchWord {nbits w : Nat} {i : Instr} (h : decodeTableWord nbits w = some i) (s : State) :
    step (s.withFetchWord nbits w) = exec i s := by
  obtain ⟨hw, hdecode⟩ := decodeTableWord_eq_some h
  rw [withFetchWord_fits hw, step_command rfl rfl, ← hdecode]
  rfl

/-- Settles O22: the step decodes the ports of the next cycle, and a table word is placed as that cycle. -/
theorem stepRunsDecodedCommand : Obligations.StepRunsDecodedCommand := by
  unfold Obligations.StepRunsDecodedCommand
  refine ⟨fun s c rest i hi hc hdecode _ => ?_, fun s nbits w i h => step_withFetchWord h s⟩
  rw [step_command hi hc, hdecode]

end Sys2Proof.Machine
end

section
/-! What a step needs to answer, said as an `↔`, and that every step keeps the invariant. -/

namespace Sys2Proof.Machine

/-- The cycles that complete in `s`: a reset, a NOP, and in a ready state every cycle (R119, R131). -/
abbrev Cycle.CompletesIn (c : Cycle) (s : State) : Prop :=
  c.rst = true ∨ decodePorts c.op c.din = .nop ∨ s.Ready

theorem clockEdge_eq_next_iff {c : Cycle} {s t : State} :
    clockEdge c s = .next t ↔ c.CompletesIn s ∧ t = cycleEffect c s := by
  unfold clockEdge cycleEffect
  split
  case isTrue hr =>
    simp [Cycle.CompletesIn, hr, eq_comm]
  case isFalse hr =>
    constructor
    · intro h
      exact ⟨.inr (exec_next h).2, (exec_next h).1⟩
    · rintro ⟨hreset | hnop | hready, rfl⟩
      · exact absurd hreset hr
      · rw [hnop, exec_nop]
      · exact exec_ready hready _

theorem step_eq_next_iff {s t : State} :
    step s = .next t ↔
      ∃ c rest, s.inputs = c :: rest ∧ c.CompletesIn s ∧ t = cycleEffect c { s with inputs := rest } := by
  constructor
  · intro h
    obtain ⟨c, hi, -⟩ := step_next h
    rw [step_cons hi, clockEdge_eq_next_iff] at h
    exact ⟨c, t.inputs, hi, h⟩
  · rintro ⟨c, rest, hi, h⟩
    rw [step_cons hi, clockEdge_eq_next_iff]
    exact h

/-- The three ways to complete: a reset and a NOP in whatever state, and any cycle in a ready one. -/
theorem cycleEffect_cases {c : Cycle} {s : State} (h : c.CompletesIn s) :
    cycleEffect c = resetEdge ∨ cycleEffect c = drive 0 false ∨ s.Ready := by
  by_cases hr : c.rst = true
  · exact .inl (funext fun u => if_pos hr)
  · obtain hreset | hnop | hready := h
    · exact absurd hreset hr
    · exact .inr (.inl (funext fun u => by rw [cycleEffect, if_neg hr, hnop]; rfl))
    · exact .inr (.inr hready)

theorem cycleEffect_inv {c : Cycle} {s : State} (hinv : s.Inv) (hc : c.CompletesIn s) : (cycleEffect c s).Inv := by
  obtain hreset | hnop | hready := cycleEffect_cases hc
  · rw [hreset]
    exact ⟨hinv.1, fun _ => resetEdge_ring s⟩
  · rw [hnop]
    exact hinv
  · exact (cycleEffect_inv_ready hinv hready c).1

/-- Settles O40: the effect of every cycle that completes keeps the invariant. -/
theorem stepKeepsInv : Obligations.StepKeepsInv := by
  unfold Obligations.StepKeepsInv
  intro s t hinv h
  obtain ⟨c, rest, -, hc, rfl⟩ := step_eq_next_iff.mp h
  exact cycleEffect_inv (s := { s with inputs := rest }) hinv hc

/-- Settles O42: a step of a ready state is its cycle's effect, and that is a cycle of the bounded queue. -/
theorem stepRefinesFifo : Obligations.StepRefinesFifo := by
  unfold Obligations.StepRefinesFifo
  intro s c rest hinv hr hi
  exact ⟨_, step_ready hr hi, toFifo_cycle (s := { s with inputs := rest }) hinv hr c⟩

end Sys2Proof.Machine
end

section
/-! Unoccupied slots (R42): states that differ only in them step alike and stay alike. -/

namespace Sys2Proof.Machine

/-- The three registers of the ring (R24, R25, R26). -/
def State.registers (s : State) : Index × Index × Index :=
  (s.head, s.tail, s.count)

theorem registers_eq_iff {s t : State} :
    s.registers = t.registers ↔ s.head = t.head ∧ s.tail = t.tail ∧ s.count = t.count := by
  simp only [State.registers, Prod.mk.injEq]

/-- Where the registers go depends on no slot. -/
theorem effect_registers_congr (i : Instr) {s t : State} (h : s.registers = t.registers) :
    (effect i s).registers = (effect i t).registers := by
  obtain ⟨hh, ht, hc⟩ := registers_eq_iff.mp h
  rw [registers_eq_iff]
  cases i with
  | push f =>
    by_cases hf : t.count.toNat = 100
    · have hf' : s.count.toNat = 100 := hc ▸ hf
      simp [effect, pushEffect_full hf, pushEffect_full hf', hh, ht, hc]
    · have hf' : s.count.toNat ≠ 100 := hc ▸ hf
      simp [effect, pushEffect_notFull hf, pushEffect_notFull hf', hh, ht, hc]
  | pop =>
    by_cases hf : t.count.toNat = 0
    · have hf' : s.count.toNat = 0 := hc ▸ hf
      simp [effect, popEffect_empty hf, popEffect_empty hf', hh, ht, hc]
    · have hf' : s.count.toNat ≠ 0 := hc ▸ hf
      simp [effect, popEffect_notEmpty hf, popEffect_notEmpty hf', hh, ht, hc]
  | nop | clrlost | qempty | qfull | qlost | reserved => exact ⟨hh, ht, hc⟩

theorem cycleEffect_constructed_eq (c : Cycle) (s : State) :
    (cycleEffect c s).constructed = (c.rst || s.constructed) := by
  unfold cycleEffect
  split <;> simp_all

theorem cycleEffect_registers_congr (c : Cycle) {s t : State} (h : s.registers = t.registers) :
    (cycleEffect c s).registers = (cycleEffect c t).registers := by
  unfold cycleEffect
  split
  · rfl
  · exact effect_registers_congr _ h

/-- A cycle that completes moves equal queues to equal queues and drives the same outputs. -/
theorem cycleEffect_toFifo_congr {c : Cycle} {s t : State} (hs : s.Inv) (ht : t.Inv) (hcs : c.CompletesIn s)
    (hct : s.Ready → t.Ready) (h : s.toFifo = t.toFifo) :
    (cycleEffect c s).toFifo = (cycleEffect c t).toFifo ∧ (cycleEffect c s).dout = (cycleEffect c t).dout ∧
      (cycleEffect c s).rbit = (cycleEffect c t).rbit := by
  obtain hreset | hnop | hready := cycleEffect_cases hcs
  · rw [hreset]
    exact ⟨rfl, rfl, rfl⟩
  · rw [hnop]
    exact ⟨h, rfl, rfl⟩
  · have hcycle := toFifo_cycle hs hready c
    rw [h, toFifo_cycle ht (hct hready) c] at hcycle
    simpa [eq_comm] using hcycle

namespace State.SameButUnoccupied

theorem symm {s t : State} (h : s.SameButUnoccupied t) : t.SameButUnoccupied s :=
  ⟨h.head.symm, h.tail.symm, h.count.symm, h.dataLost.symm, h.constructed.symm, h.inputs.symm, h.contents.symm⟩

theorem ready {s t : State} (h : s.SameButUnoccupied t) (hr : s.Ready) : t.Ready := by
  simpa only [State.Ready, State.InRange, h.head, h.tail, h.count, h.constructed] using hr

theorem registers {s t : State} (h : s.SameButUnoccupied t) : s.registers = t.registers :=
  registers_eq_iff.mpr ⟨h.head, h.tail, h.count⟩

theorem toFifo {s t : State} (h : s.SameButUnoccupied t) : s.toFifo = t.toFifo := by
  rw [State.toFifo, State.toFifo, h.contents, h.dataLost]

theorem completesIn {s t : State} (h : s.SameButUnoccupied t) {c : Cycle} (hc : c.CompletesIn s) : c.CompletesIn t :=
  hc.imp id (Or.imp id h.ready)

theorem withInputs {s t : State} (h : s.SameButUnoccupied t) (cs : List Cycle) :
    State.SameButUnoccupied { s with inputs := cs } { t with inputs := cs } :=
  ⟨h.head, h.tail, h.count, h.dataLost, h.constructed, rfl, h.contents⟩

/-- A cycle that completes keeps the agreement and drives the same outputs in both states. -/
theorem cycleEffect_congr {c : Cycle} {s t : State} (h : s.SameButUnoccupied t) (hs : s.Inv) (ht : t.Inv)
    (hc : c.CompletesIn s) :
    (cycleEffect c s).SameButUnoccupied (cycleEffect c t) ∧ (cycleEffect c s).dout = (cycleEffect c t).dout ∧
      (cycleEffect c s).rbit = (cycleEffect c t).rbit := by
  obtain ⟨hfifo, houts⟩ := cycleEffect_toFifo_congr hs ht hc h.ready h.toFifo
  obtain ⟨hhead, htail, hcount⟩ := registers_eq_iff.mp (cycleEffect_registers_congr c h.registers)
  refine ⟨⟨hhead, htail, hcount, congrArg Fifo.lost hfifo, ?_, ?_, congrArg Fifo.frames hfifo⟩, houts⟩
  · rw [cycleEffect_constructed_eq, cycleEffect_constructed_eq, h.constructed]
  · rw [cycleEffect_inputs, cycleEffect_inputs, h.inputs]

/-- The step of one state is matched by the other's, with the same outputs. -/
theorem exists_step {s t s' : State} (h : s.SameButUnoccupied t) (hs : s.Inv) (ht : t.Inv) (hstep : step s = .next s') :
    ∃ t', step t = .next t' ∧ s'.SameButUnoccupied t' ∧ s'.dout = t'.dout ∧ s'.rbit = t'.rbit := by
  obtain ⟨c, rest, hi, hc, rfl⟩ := step_eq_next_iff.mp hstep
  have hstep' := step_eq_next_iff.mpr ⟨c, rest, h.inputs ▸ hi, h.completesIn hc, rfl⟩
  exact ⟨_, hstep', (h.withInputs rest).cycleEffect_congr hs ht hc⟩

end State.SameButUnoccupied

/-- An observation ends with a cycle that has no outcome (R10). -/
theorem observe_of_stops {s : State} (h : ∀ t, step s ≠ .next t) (n : Nat) : observe n s = [] := by
  cases n with
  | zero => rfl
  | succ n =>
    rw [observe]
    split
    case h_1 t hstep => exact absurd hstep (h t)
    case h_2 | h_3 => rfl

/-- Settles O44, by induction on the number of cycles: a step of one state is matched by the other's, and so is a stop. -/
theorem unoccupiedSlotsUnobservable : Obligations.UnoccupiedSlotsUnobservable := by
  unfold Obligations.UnoccupiedSlotsUnobservable
  intro s t n
  induction n generalizing s t with
  | zero => exact fun _ _ _ => rfl
  | succ n ih =>
    intro hs ht h
    by_cases hstops : ∃ s', step s = .next s'
    · obtain ⟨s', hstep⟩ := hstops
      obtain ⟨t', hstep', h', hdout, hrbit⟩ := h.exists_step hs ht hstep
      rw [observe_succ hstep, observe_succ hstep', hdout, hrbit,
        ih s' t' (stepKeepsInv s s' hs hstep) (stepKeepsInv t t' ht hstep') h']
    · have hstops' : ∀ t', step t ≠ .next t' := fun t' hstep' =>
        hstops ((h.symm.exists_step ht hs hstep').imp fun _ hmatch => hmatch.1)
      rw [observe_of_stops (not_exists.mp hstops), observe_of_stops hstops']

end Sys2Proof.Machine
end

section
/-! What one step writes (R23, R45, R46, R102), read off the opcode of the cycle that it takes. -/

namespace Sys2Proof.Machine

/-- The decoder and the encoder of a command agree on the opcode (R61). -/
theorem decodePorts_opcode (op : Opcode) (din : Bus) : (decodePorts op din).opcode = op := by
  rcases opcode_cases op with rfl | rfl | rfl | rfl | rfl | rfl | rfl | rfl <;> rfl

/-- Encoding the frame on a bus value gives the value back (R66). -/
theorem encodeFrame_decodeFrame (b : Bus) : encodeFrame (decodeFrame b) = b := by
  simp only [encodeFrame, decodeFrame, Vector.getElem_ofFn]
  iterate 10 rw [BitVec.extractLsb'_append_extractLsb'_eq_extractLsb' (by decide)]
  exact BitVec.extractLsb'_eq_self

theorem presentsNext_cons {s : State} {c : Cycle} {rest : List Cycle} (hi : s.inputs = c :: rest) (op : Opcode) :
    presentsNext op s = (!c.rst && c.op == op) := by
  simp only [presentsNext, hi]

theorem resetsNext_cons {s : State} {c : Cycle} {rest : List Cycle} (hi : s.inputs = c :: rest) :
    resetsNext s = c.rst := by
  simp only [resetsNext, hi]

theorem cycleEffect_command {c : Cycle} (hr : c.rst = false) (s : State) :
    cycleEffect c s = effect (decodePorts c.op c.din) s := by
  simp [cycleEffect, hr]

theorem effect_mem_of_not_push {i : Instr} (h : i.opcode ≠ 0b001) (s : State) : (effect i s).mem = s.mem := by
  cases i with
  | push f => exact absurd rfl h
  | pop => exact popEffect_mem s
  | nop | clrlost | qempty | qfull | qlost | reserved => rfl

/-- A cycle writes the slot at `tail`, with the bits of `din`, if it presents a PUSH, and no slot otherwise. -/
theorem cycleEffect_mem (c : Cycle) (s : State) :
    (cycleEffect c s).mem = if c.rst = false ∧ c.op = 0b001 then writeSlot s.mem s.tail.toNat c.din else s.mem := by
  cases hr : c.rst with
  | true => simp [cycleEffect, hr]
  | false =>
    by_cases hop : c.op = 0b001
    · have hpush : decodePorts c.op c.din = .push (decodeFrame c.din) := by rw [hop]; rfl
      rw [if_pos ⟨rfl, hop⟩, cycleEffect_command hr, hpush, effect, drive_mem, pushEffect_mem,
        encodeFrame_decodeFrame]
    · rw [if_neg (fun h => hop h.2), cycleEffect_command hr, effect_mem_of_not_push (by rwa [decodePorts_opcode])]

/-- A PUSH completes in a ready state only. -/
theorem Cycle.CompletesIn.ready_of_push {c : Cycle} {s : State} (hc : c.CompletesIn s) (hr : c.rst = false)
    (hop : c.op = 0b001) : s.Ready := by
  simpa [Cycle.CompletesIn, hr, hop, decodePorts] using hc

/-- Reading any slot after one slot was written. -/
theorem readSlot_writeSlot {m : Memory} (hm : m.wf = true) {i : Nat} (hi : i < Config.cap) (b : Bus) (j : Nat) :
    readSlot (writeSlot m i b) j = if j = i then b else readSlot m j := by
  split
  case isTrue h => rw [h, readSlot_writeSlot_same hm hi]
  case isFalse h => exact readSlot_writeSlot_other hm hi (Ne.symm h) b

/-- Settles O32, from what a cycle writes; a PUSH that completes has a valid `tail`. -/
theorem onlyPushWritesSlots : Obligations.OnlyPushWritesSlots := by
  unfold Obligations.OnlyPushWritesSlots
  intro s t hm h
  obtain ⟨c, rest, hi, hc, rfl⟩ := step_eq_next_iff.mp h
  simp only [pushesNext, presentsNext_cons hi, cycleEffect_mem, hi]
  constructor
  · intro hnot
    exact if_neg (by simpa using hnot)
  · intro hpush
    have hpush' : c.rst = false ∧ c.op = 0b001 := by simpa using hpush
    obtain ⟨-, -, htail, -⟩ := hc.ready_of_push hpush'.1 hpush'.2
    rw [if_pos hpush']
    exact fun i _ => readSlot_writeSlot hm htail c.din i

/-- A buffer that is empty or full has `head = tail` (R32). -/
theorem State.Ring.head_eq_tail {s : State} (h : s.Ring) (hc : s.count.toNat = 0 ∨ s.count.toNat = 100) :
    s.head = s.tail := by
  obtain ⟨⟨hh, -, -⟩, hg⟩ := h
  apply BitVec.eq_of_toNat_eq
  simp only [State.RingAligned, cap_eq] at hh hg
  omega

theorem pushEffect_count_of_full {s : State} (hf : s.count.toNat = 100) (b : Bus) :
    (pushEffect b s).count.toNat = 100 := by
  have hroom := evictOldest_count_of_full hf
  rw [pushEffect_full hf, insertNewest_count, count_add_one (by omega), hroom]

/-- Settles O35: the queue appends and drops its oldest frame, and a full ring has `head = tail` before and after. -/
theorem fullPushDropsOldest : Obligations.FullPushDropsOldest := by
  unfold Obligations.FullPushDropsOldest
  intro f s hinv hr hf
  obtain ⟨hm, hring⟩ := (inv_iff_of_ready hr).mp hinv
  have hfifo := congrArg Fifo.frames (toFifo_pushEffect hm hring (encodeFrame f))
  have hring' := pushEffect_ring hring (encodeFrame f)
  refine ⟨_, exec_ready hr (.push f), by rw [contents_length, hf], ?_, hring.head_eq_tail (.inr hf),
    hring'.head_eq_tail (.inr (pushEffect_count_of_full hf _))⟩
  simpa [effect, Fifo.append, hf] using hfifo

end Sys2Proof.Machine
end

section
/-! Runs: what every step keeps holds after any number of cycles, and the loss flag's history (R34). -/

namespace Sys2Proof.Machine

/-- The next `n + 1` cycles are the next one and the `n` after it (R55). -/
theorem run_succ {s t : State} (h : step s = .next t) (n : Nat) : run (n + 1) s = run n t := by
  rw [run, h]

/-- A property that every step keeps holds after any number of cycles. -/
theorem run_keeps {P : State → Prop} (hkeeps : ∀ s t, P s → step s = .next t → P t) :
    ∀ {n : Nat} {s t : State}, P s → run n s = .next t → P t
  | 0, _, _, hs, h => by cases h; exact hs
  | n + 1, s, t, hs, h => by
    rw [run] at h
    split at h
    case h_1 u hstep => exact run_keeps hkeeps (hkeeps s u hs hstep) h
    case h_2 | h_3 => cases h

/-- The last of `n + 1` cycles is a step from where the first `n` lead. -/
theorem run_succ_eq_next_iff : ∀ {n : Nat} {s t : State},
    run (n + 1) s = .next t ↔ ∃ u, run n s = .next u ∧ step u = .next t
  | 0, s, t => by
    cases hstep : step s <;> simp [run, hstep]
  | n + 1, s, t => by
    cases hstep : step s with
    | next v =>
      rw [run_succ hstep, run_succ hstep]
      exact run_succ_eq_next_iff
    | fault r | refused r => simp [run, hstep]

theorem step_constructed {s t : State} (hs : s.constructed = true) (h : step s = .next t) : t.constructed = true := by
  obtain ⟨c, rest, -, -, rfl⟩ := step_eq_next_iff.mp h
  exact cycleEffect_constructed (s := { s with inputs := rest }) hs c

/-- Settles O41: the invariant is kept by every step, and so is having been reset. -/
theorem registersStayInRange : Obligations.RegistersStayInRange := by
  unfold Obligations.RegistersStayInRange
  intro s t n hinv hs h
  obtain ⟨hinv', ht⟩ := run_keeps (P := fun u => u.Inv ∧ u.constructed = true)
    (fun u v ⟨hinv, hu⟩ hstep => ⟨stepKeepsInv u v hinv hstep, step_constructed hu hstep⟩) ⟨hinv, hs⟩ h
  obtain ⟨hrange, hg⟩ := hinv'.2 ht
  obtain ⟨hh, htail, hc⟩ := hrange
  exact ⟨hh, htail, hc, hg, State.Ring.head_eq_tail ⟨⟨hh, htail, hc⟩, hg⟩⟩

/-- What each command leaves in the loss flag (R102). -/
theorem effect_dataLost (i : Instr) (s : State) :
    (effect i s).dataLost =
      if i.opcode = 0b011 then false else if i.opcode = 0b001 ∧ isFull s = true then true else s.dataLost := by
  cases i with
  | push f =>
    simp only [effect, drive_dataLost, pushEffect_dataLost]
    cases isFull s <;> rfl
  | pop => exact popEffect_dataLost s
  | nop | clrlost | qempty | qfull | qlost | reserved => rfl

/-- Only CLRLOST and reset clear the flag, and only a PUSH on a full buffer sets it (R102). -/
theorem step_dataLost {s t : State} (h : step s = .next t) :
    t.dataLost = if clearsNext s then false else if overwritesNext s then true else s.dataLost := by
  obtain ⟨c, rest, hi, -, rfl⟩ := step_eq_next_iff.mp h
  have hfull : isFull { s with inputs := rest } = isFull s := rfl
  cases hr : c.rst <;>
    simp [cycleEffect, clearsNext, overwritesNext, resetsNext_cons hi, presentsNext_cons hi, hr, effect_dataLost,
      decodePorts_opcode, hfull]

/-- The cycle that overwrites is a PUSH, which clears nothing. -/
theorem clearsNext_of_overwritesNext {s : State} (h : overwritesNext s = true) : clearsNext s = false := by
  cases hi : s.inputs with
  | nil => simp [clearsNext, resetsNext, presentsNext, hi]
  | cons c rest =>
    simp only [overwritesNext, presentsNext_cons hi, Bool.and_eq_true, Bool.not_eq_true', beq_iff_eq] at h
    obtain ⟨⟨hr, hop⟩, -⟩ := h
    simp [clearsNext, resetsNext_cons hi, presentsNext_cons hi, hr, hop]

/-- Among the next `n` cycles there was an overwrite, and nothing after it cleared the flag (R34). -/
def OverwroteSinceClear (n : Nat) (s : State) : Prop :=
  ∃ k < n, ∃ u, run k s = .next u ∧ overwritesNext u = true ∧
    ∀ j, k < j → j < n → ∀ v, run j s = .next v → clearsNext v = false

/-- One more cycle: it is the overwrite itself, or it clears nothing and the overwrite was before it. -/
theorem overwroteSinceClear_succ {n : Nat} {s u : State} (h : run n s = .next u) :
    OverwroteSinceClear (n + 1) s ↔
      overwritesNext u = true ∨ (clearsNext u = false ∧ OverwroteSinceClear n s) := by
  constructor
  · rintro ⟨k, hk, v, hv, hover, hclear⟩
    obtain hlt | rfl := Nat.lt_succ_iff_lt_or_eq.mp hk
    · exact .inr ⟨hclear n hlt n.lt_succ_self u h,
        k, hlt, v, hv, hover, fun j hkj hjn => hclear j hkj (Nat.lt_succ_of_lt hjn)⟩
    · rw [h] at hv
      cases hv
      exact .inl hover
  · rintro (hover | ⟨hu, k, hk, v, hv, hover, hclear⟩)
    · exact ⟨n, n.lt_succ_self, u, h, hover, fun j hnj hjn => by omega⟩
    · refine ⟨k, Nat.lt_succ_of_lt hk, v, hv, hover, fun j hkj hjn w hw => ?_⟩
      obtain hlt | rfl := Nat.lt_succ_iff_lt_or_eq.mp hjn
      · exact hclear j hkj hlt w hw
      · rw [h] at hw
        cases hw
        exact hu

theorem dataLost_iff_overwroteSinceClear {s : State} (hs : s.dataLost = false) :
    ∀ {n : Nat} {t : State}, run n s = .next t → (t.dataLost = true ↔ OverwroteSinceClear n s)
  | 0, t, h => by
    cases h
    simp [hs, OverwroteSinceClear]
  | n + 1, t, h => by
    obtain ⟨u, hu, hstep⟩ := run_succ_eq_next_iff.mp h
    rw [overwroteSinceClear_succ hu, ← dataLost_iff_overwroteSinceClear hs hu, step_dataLost hstep]
    cases hover : overwritesNext u with
    | true => simp [clearsNext_of_overwritesNext hover]
    | false => simp

/-- Settles O45, by induction on the number of cycles, the last one first. -/
theorem lossFlagRecordsOverwrite : Obligations.LossFlagRecordsOverwrite := by
  unfold Obligations.LossFlagRecordsOverwrite
  intro s t n hs h
  exact dataLost_iff_overwroteSinceClear hs h

end Sys2Proof.Machine
end

section
/-! The index increment (R43), the stops of a command (R119, R131) and the state after reset (R40). -/

namespace Sys2Proof.Machine

/-- Settles O17, from the number that the increment stands for; 99 is the only valid index that wraps. -/
theorem indexIncrementIsModulo : Obligations.IndexIncrementIsModulo := by
  unfold Obligations.IndexIncrementIsModulo
  intro i hi
  have hnext := nextIndex_toNat i
  refine ⟨hnext, by omega, fun h99 => BitVec.eq_of_toNat_eq ?_, fun hlt => BitVec.eq_of_toNat_eq ?_⟩
  · rw [hnext, h99]
    rfl
  · rw [hnext, count_add_one (by omega), Nat.mod_eq_of_lt (by omega)]

theorem exec_outOfRange {i : Instr} {s : State} (hi : i ≠ .nop) (h : ¬ s.InRange) :
    exec i s = .fault .registerEncoding := by
  rw [exec_command hi, commandEdge_outOfRange h]

/-- Settles O25: the edge of every command but NOP looks at the registers first. -/
theorem outOfRangeRegisterFaults : Obligations.OutOfRangeRegisterFaults := by
  unfold Obligations.OutOfRangeRegisterFaults
  intro i s hi h
  refine exec_outOfRange hi fun hr => ?_
  rw [inRange_iff] at hr
  omega

/-- Settles O26: the two stops of a command, NOP's effect, and the reset edge. -/
theorem beforeFirstReset : Obligations.BeforeFirstReset := by
  unfold Obligations.BeforeFirstReset
  intro s hc
  refine ⟨fun i hi => ⟨fun hr => ?_, exec_outOfRange hi⟩, ⟨_, exec_nop s, rfl, rfl⟩, fun op din =>
    ⟨_, rfl, resetEdge_constructed s, (resetEdge_ring s).1⟩⟩
  rw [exec_command hi, commandEdge_unconstructed hr hc]

/-- Settles O30: the reset edge of a state with nothing in its slots and no further input is `State.reset`. -/
theorem resetStateHoldsResetValues : Obligations.ResetStateHoldsResetValues := by
  unfold Obligations.ResetStateHoldsResetValues
  refine ⟨rfl, rfl, rfl, rfl, rfl, rfl, rfl, fun s c hc => ?_⟩
  rw [step_cons rfl, clockEdge, if_pos hc]
  rfl

/-- Settles O39: the memory after reset is canonical, and a reset edge leaves a ring. -/
theorem resetStateMeetsInv : Obligations.ResetStateMeetsInv :=
  ⟨reset_mem_wf, fun _ => resetEdge_ring State.reset⟩

end Sys2Proof.Machine
end

section
/-! The serialisation of a frame (R47, R49): its bytes are the bytes of the frame's bus value (R64). -/

namespace Sys2Proof.Machine

theorem encodeFrame_identifier (f : Frame) : (encodeFrame f).extractLsb' 0 16 = f.identifier :=
  extract_append_right _ _

theorem encodeFrame_identifierByte (f : Frame) {k : Nat} (hk : k + 8 ≤ 16) :
    (encodeFrame f).extractLsb' k 8 = f.identifier.extractLsb' k 8 :=
  BitVec.extractLsb'_append_eq_of_add_le hk

theorem encodeFrame_payload (f : Frame) {i : Nat} (hi : i < 8) :
    (encodeFrame f).extractLsb' (16 + 8 * i) 8 = f.payload[i] := by
  interval_cases i <;>
    simp (disch := omega) only [encodeFrame, BitVec.extractLsb'_append_eq_of_le,
      BitVec.extractLsb'_append_eq_of_add_le] <;>
    exact BitVec.extractLsb'_eq_self

theorem encodeFrame_packedByte (f : Frame) : (encodeFrame f).extractLsb' 80 8 = packedByte f := by
  simp (disch := omega) only [packedByte_append, encodeFrame, BitVec.extractLsb'_append_eq_of_le]
  exact BitVec.extractLsb'_eq_self

theorem encodeFrame_port (f : Frame) : (encodeFrame f).extractLsb' 80 4 = f.port := by
  simp (disch := omega) only [encodeFrame, BitVec.extractLsb'_append_eq_of_le,
    BitVec.extractLsb'_append_eq_of_add_le]
  exact BitVec.extractLsb'_eq_self

theorem encodeFrame_length (f : Frame) : (encodeFrame f).extractLsb' 84 4 = f.length := by
  simp (disch := omega) only [encodeFrame, BitVec.extractLsb'_append_eq_of_le]
  exact BitVec.extractLsb'_eq_self

/-- Decoding the bus value of a frame gives the frame back (R66). -/
theorem decodeFrame_encodeFrame (f : Frame) : decodeFrame (encodeFrame f) = f := by
  have hpayload : (Vector.ofFn fun i : Fin 8 => (encodeFrame f).extractLsb' (16 + 8 * i.val) 8) = f.payload :=
    Vector.ext fun i hi => by rw [Vector.getElem_ofFn, encodeFrame_payload f hi]
  rw [decodeFrame, encodeFrame_identifier, hpayload, encodeFrame_port, encodeFrame_length]

theorem busBytes_getElem? (b : Bus) {k : Nat} (hk : k < 11) : (busBytes b)[k]? = some (b.extractLsb' (8 * k) 8) := by
  interval_cases k <;> rfl

theorem serialise_eq_busBytes (f : Frame) : serialise f = busBytes (encodeFrame f) := by
  simp [serialise, payload_toList, busBytes, busByte, encodeFrame_identifierByte, ← encodeFrame_payload,
    encodeFrame_packedByte]

/-- Byte `k` of the serialisation stands at the bits `[8k+7:8k]` of the bus value (R64). -/
theorem serialise_getElem? (f : Frame) {k : Nat} (hk : k < 11) :
    (serialise f)[k]? = some ((encodeFrame f).extractLsb' (8 * k) 8) := by
  rw [serialise_eq_busBytes, busBytes_getElem? _ hk]

/-- `(length << 4) | port` loses no bit of either field (R49). -/
theorem packedByte_toNat (f : Frame) : (packedByte f).toNat = 16 * f.length.toNat + f.port.toNat := by
  rw [packedByte_append, BitVec.toNat_append, ← Nat.shiftLeft_add_eq_or_of_lt f.port.isLt, Nat.shiftLeft_eq,
    Nat.mul_comm]

/-- Settles O2: every byte of the serialisation is read off the bus value, whose fields are known. -/
theorem serialisationLayout : Obligations.SerialisationLayout := by
  unfold Obligations.SerialisationLayout
  intro f
  refine ⟨by rw [serialise_eq_busBytes]; rfl, rfl, rfl, fun i hi => ?_, ?_, packedByte_toNat f,
    fun k hk => serialise_getElem? f hk, encodeFrame_identifier f, encodeFrame_port f, encodeFrame_length f⟩
  · rw [serialise_getElem? f (by omega), Nat.mul_add, encodeFrame_payload f hi]
  · rw [serialise_getElem? f (by omega), encodeFrame_packedByte]

end Sys2Proof.Machine
end

section
/-! Commands one after the other: a command that completes leaves a ready state ready, and some effects do nothing when
done again (R53, R55). -/

namespace Sys2Proof.Machine

theorem removeOldest_inRange {s : State} (h : s.InRange) (hf : s.count.toNat ≠ 0) : (removeOldest s).InRange := by
  rw [inRange_iff] at h ⊢
  simp only [removeOldest_head, removeOldest_tail, removeOldest_count, nextIndex_toNat, count_sub_one hf]
  omega

theorem insertNewest_inRange {s : State} (h : s.InRange) (hf : s.count.toNat < 100) (b : Bus) :
    (insertNewest b s).InRange := by
  rw [inRange_iff] at h ⊢
  simp only [insertNewest_head, insertNewest_tail, insertNewest_count, nextIndex_toNat,
    count_add_one (show s.count.toNat < 127 by omega)]
  omega

theorem pushEffect_inRange {s : State} (h : s.InRange) (b : Bus) : (pushEffect b s).InRange := by
  by_cases hf : s.count.toNat = 100
  · have hevict : (evictOldest s).InRange := removeOldest_inRange h (by omega)
    rw [pushEffect_full hf]
    exact insertNewest_inRange hevict (by rw [evictOldest_count_of_full hf]; omega) b
  · obtain ⟨-, -, hc⟩ := (inRange_iff s).mp h
    rw [pushEffect_notFull hf]
    exact insertNewest_inRange h (by omega) b

theorem popEffect_inRange {s : State} (h : s.InRange) : (popEffect s).InRange := by
  by_cases hf : s.count.toNat = 0
  · rw [popEffect_empty hf]
    exact h
  · rw [popEffect_notEmpty hf]
    exact removeOldest_inRange h hf

/-- After every command the next one has its effect too (R55); `tail` need not be aligned for this. -/
theorem effect_ready (i : Instr) {s : State} (h : s.Ready) : (effect i s).Ready := by
  refine ⟨(effect_constructed i s).trans h.1, ?_⟩
  cases i with
  | push f => exact pushEffect_inRange h.2 (encodeFrame f)
  | pop => exact popEffect_inRange h.2
  | nop | clrlost | qempty | qfull | qlost | reserved => exact h.2

/-- NOP, the reserved opcode and the queries only drive the ports. -/
theorem exists_effect_eq_drive {i : Instr} (hi : i = .nop ∨ i = .reserved ∨ i = .qempty ∨ i = .qfull ∨ i = .qlost)
    (s : State) : ∃ r, effect i s = drive 0 r s := by
  rcases hi with rfl | rfl | rfl | rfl | rfl <;> exact ⟨_, rfl⟩

/-- Settles O18: driving the ports changes neither a register nor a slot. -/
theorem idleAndQueryFrame : Obligations.IdleAndQueryFrame := by
  unfold Obligations.IdleAndQueryFrame
  intro i hi s t h
  obtain ⟨r, hdrive⟩ := exists_effect_eq_drive hi s
  obtain rfl : t = drive 0 r s := (exec_next h).1.trans hdrive
  exact ⟨rfl, rfl, rfl, rfl, rfl, rfl, fun _ => rfl⟩

/-- A command that completed completes again, leaving the same state exactly where its effect fixes that state. -/
theorem exec_again_eq_next_iff {i : Instr} {s t : State} (h : exec i s = .next t) :
    exec i t = .next t ↔ effect i t = t := by
  constructor
  · intro hagain
    exact (exec_next hagain).1.symm
  · intro hfix
    obtain ⟨rfl, rfl | hr⟩ := exec_next h
    · rw [exec_nop, hfix]
    · rw [exec_ready (effect_ready i hr), hfix]

/-- The idle commands, the queries and CLRLOST do nothing when done again. -/
theorem effect_effect {i : Instr}
    (hi : i = .nop ∨ i = .reserved ∨ i = .qempty ∨ i = .qfull ∨ i = .qlost ∨ i = .clrlost) (s : State) :
    effect i (effect i s) = effect i s := by
  rcases hi with rfl | rfl | rfl | rfl | rfl | rfl <;> rfl

theorem popEffect_popEffect_of_empty {s : State} (hf : s.count.toNat = 0) : popEffect (popEffect s) = popEffect s := by
  have hf' : (drive (encodeFrame emptyFrame) false s).count.toNat = 0 := hf
  rw [popEffect_empty hf, popEffect_empty hf']
  rfl

/-- Removing a frame changes `count`. -/
theorem popEffect_ne_of_notEmpty {s : State} (hf : s.count.toNat ≠ 0) : popEffect s ≠ s := by
  intro h
  have hcount := congrArg (fun u : State => u.count.toNat) h
  simp only [popEffect_notEmpty hf, drive_count, removeOldest_count, count_sub_one hf] at hcount
  omega

/-- `next(i)` is never `i`. -/
theorem nextIndex_ne (i : Index) : nextIndex i ≠ i := by
  intro h
  have := congrArg BitVec.toNat h
  rw [nextIndex_toNat] at this
  omega

/-- A PUSH moves `tail`. -/
theorem effect_push_ne (f : Frame) (s : State) : effect (.push f) s ≠ s := by
  intro h
  refine nextIndex_ne s.tail ?_
  simpa [effect] using congrArg State.tail h

/-- Settles O34: a command is idempotent where its own result is a fixed point of its effect. -/
theorem commandIdempotency : Obligations.CommandIdempotency := by
  unfold Obligations.CommandIdempotency
  refine ⟨fun i hi s t h => (exec_again_eq_next_iff h).mpr ?_, fun s t hf h => (exec_again_eq_next_iff h).mpr ?_,
    fun s t hf h => (exec_again_eq_next_iff h).not.mpr ?_, fun f s t h => (exec_again_eq_next_iff h).not.mpr ?_⟩
  · obtain ⟨rfl, -⟩ := exec_next h
    exact effect_effect hi s
  · obtain ⟨rfl, -⟩ := exec_next h
    exact popEffect_popEffect_of_empty hf
  · obtain ⟨rfl, -⟩ := exec_next h
    have hne : s.count.toNat ≠ 0 := by omega
    refine popEffect_ne_of_notEmpty ?_
    simp only [effect, popEffect_notEmpty hne, drive_count, removeOldest_count, count_sub_one hne]
    omega
  · exact effect_push_ne f t

/-- A PUSH onto an empty buffer leaves a queue of that one frame, and the flag as it was (R85). -/
theorem toFifo_effect_push_of_empty {s : State} (hm : s.mem.wf = true) (h : s.Ring) (hf : s.count.toNat = 0) (f : Frame) :
    (effect (.push f) s).toFifo = ⟨[encodeFrame f], s.dataLost⟩ := by
  rw [effect, toFifo_drive, toFifo_pushEffect hm h]
  simp [Fifo.append, contents_eq_nil_of_empty hf, State.toFifo]

/-- A POP of a queue of one frame drives that frame and leaves an empty queue with the flag as it was (R90). -/
theorem popEffect_of_toFifo_singleton {s : State} {b : Bus} {l : Bool} (hr : s.InRange) (h : s.toFifo = ⟨[b], l⟩) :
    (popEffect s).dout = b ∧ (popEffect s).count.toNat = 0 ∧ (popEffect s).dataLost = l := by
  have hpop := toFifo_command_pop hr
  rw [h] at hpop
  obtain ⟨hfifo, hout⟩ := Prod.mk.inj hpop
  refine ⟨(Output.mk.inj hout).1.symm, ?_, (congrArg Fifo.lost hfifo).symm⟩
  rw [← contents_length, ← toFifo_frames, ← hfifo, List.length_nil]

/-- Settles O36: the queue holds the one frame after the PUSH, so the POP drives it and leaves an empty queue. -/
theorem popAfterPushReturnsFrame : Obligations.PopAfterPushReturnsFrame := by
  unfold Obligations.PopAfterPushReturnsFrame
  intro f s hinv hr hf
  obtain ⟨hm, hring⟩ := (inv_iff_of_ready hr).mp hinv
  have hready := effect_ready (.push f) hr
  obtain ⟨hdout, hcount, hlost⟩ := popEffect_of_toFifo_singleton hready.2 (toFifo_effect_push_of_empty hm hring hf f)
  exact ⟨_, _, exec_ready hr (.push f), exec_ready hready .pop, hdout, (congrArg decodeFrame hdout).trans
    (decodeFrame_encodeFrame f), hcount, hlost⟩

theorem effect_qlost (s : State) : effect .qlost s = drive 0 s.dataLost s := rfl

theorem effect_clrlost (s : State) : effect .clrlost s = drive 0 false (clearLost s) := rfl

/-- An overwrite sets the flag and keeps the buffer full (R85, R88). -/
theorem effect_push_of_full {s : State} (hf : s.count.toNat = 100) (f : Frame) :
    (effect (.push f) s).dataLost = true ∧ (effect (.push f) s).count.toNat = 100 := by
  rw [effect, drive_dataLost, drive_count, pushEffect_dataLost, (isFull_iff s).mpr hf]
  exact ⟨rfl, pushEffect_count_of_full hf _⟩

/-- Settles O38: every command leaves a ready state for the next one, and both PUSHes find the buffer full. -/
theorem lossFlagSetAndCleared : Obligations.LossFlagSetAndCleared := by
  unfold Obligations.LossFlagSetAndCleared
  intro f g s hr hf
  obtain ⟨hlost, hcount⟩ := effect_push_of_full hf f
  have ht := effect_ready (.push f) hr
  have hu := effect_ready .qlost ht
  have hv := effect_ready .clrlost hu
  have hw := effect_ready .qlost hv
  have hx := effect_ready (.push g) hw
  have hcount' : (effect .qlost (effect .clrlost (effect .qlost (effect (.push f) s)))).count.toNat = 100 := by
    simpa only [effect_qlost, effect_clrlost, drive_count, clearLost_count] using hcount
  obtain ⟨hlost', -⟩ := effect_push_of_full hcount' g
  refine ⟨_, _, _, _, _, _, exec_ready hr _, exec_ready ht _, ?_, exec_ready hu _, exec_ready hv _, ?_, hcount',
    exec_ready hw _, exec_ready hx _, ?_⟩
  · rw [effect_qlost, drive_rbit, hlost]
  · rw [effect_qlost, drive_rbit, effect_clrlost, drive_dataLost, clearLost_dataLost]
  · rw [effect_qlost, drive_rbit, hlost']

end Sys2Proof.Machine
end

section
/-! The command word (R60 to R63, R66): its two parts, and the decoder and the encoder as inverses of each other. -/

namespace Sys2Proof.Machine

/-- The decoder reads exactly the two parts of `din ++ op` (R60). -/
theorem decode_append (op : Opcode) (din : Bus) : decode (din ++ op) = decodePorts op din := by
  rw [decode, Laws.OpcodeField.wordOp_append, Laws.OpcodeField.wordDin_append]

/-- Every word is its two parts (R60). -/
theorem wordDin_append_wordOp (w : CommandWord) : wordDin w ++ wordOp w = w := by
  rw [wordDin, wordOp, BitVec.extractLsb'_append_extractLsb'_eq_extractLsb' (by decide)]
  exact BitVec.extractLsb'_eq_self

theorem word_toNat (op : Opcode) (din : Bus) : (din ++ op).toNat = din.toNat * 8 + op.toNat := by
  rw [BitVec.toNat_append, ← Nat.shiftLeft_add_eq_or_of_lt op.isLt, Nat.shiftLeft_eq]

/-- The ports that the encoder writes for a command present that command; PUSH reads its frame back from `din`. -/
theorem decodePorts_opcode_operand (i : Instr) : decodePorts i.opcode i.operand = i := by
  cases i with
  | push f => exact congrArg Instr.push (decodeFrame_encodeFrame f)
  | nop | pop | clrlost | qempty | qfull | qlost | reserved => rfl

theorem decode_encode (i : Instr) : decode (encode i) = i := by
  rw [encode, decode_append, decodePorts_opcode_operand]

/-- Settles O6: the decoder finds the two parts that the encoder joined, and they select the command again. -/
theorem decodeEncodeAgree : Obligations.DecodeEncodeAgree := by
  unfold Obligations.DecodeEncodeAgree
  exact fun i _ => decode_encode i

/-- Settles O1: the two round trips of the frame encoding. -/
theorem frameCodecBijective : Obligations.FrameCodecBijective :=
  ⟨decodeFrame_encodeFrame, encodeFrame_decodeFrame⟩

/-- Settles O3: the two parts of a word, put together and taken apart; the edge looks at `rst` before them. -/
theorem commandWordLayout : Obligations.CommandWordLayout := by
  unfold Obligations.CommandWordLayout
  exact ⟨fun op din => ⟨Laws.OpcodeField.wordOp_append din op, Laws.OpcodeField.wordDin_append din op,
    word_toNat op din, decode_append op din⟩, wordDin_append_wordOp, fun _ _ => rfl⟩

/-- The assembler writes `din` for a PUSH and zeros for every other command (R63). -/
theorem decodePorts_operand (op : Opcode) (din : Bus) :
    (decodePorts op din).operand = if op = 0b001 then din else 0 := by
  rcases opcode_cases op with rfl | rfl | rfl | rfl | rfl | rfl | rfl | rfl
  case inr.inl => exact encodeFrame_decodeFrame din
  all_goals rfl

theorem encode_decode (w : CommandWord) :
    encode (decode w) = (if wordOp w = 0b001 then wordDin w else 0) ++ wordOp w := by
  rw [encode, decode, decodePorts_opcode, decodePorts_operand]

/-- Settles O7: the encoder keeps `op`, and on `din` the decoded frame or zeros. -/
theorem encodeDecodeAgree : Obligations.EncodeDecodeAgree := by
  unfold Obligations.EncodeDecodeAgree
  intro w
  refine ⟨fun h => ?_, fun h => ?_⟩
  · rw [encode_decode, if_pos h, wordDin_append_wordOp]
  · rw [encode_decode, if_neg h]

/-- Settles O4: the rows of the opcode table, and the opcode of the decoded command. -/
theorem opcodeMap : Obligations.OpcodeMap :=
  ⟨fun _ => ⟨rfl, rfl, rfl, rfl, rfl, rfl, rfl, rfl⟩, decodePorts_opcode⟩

/-- The decoder of the ports reads `din` for a PUSH only (R63). -/
theorem decodePorts_eq_zero_din {op : Opcode} (h : op ≠ 0b001) (din : Bus) :
    decodePorts op din = decodePorts op 0 := by
  rw [← decodePorts_opcode_operand (decodePorts op din), decodePorts_opcode, decodePorts_operand, if_neg h]

/-- A command whose opcode is not PUSH's has no operand (R63). -/
theorem operand_eq_zero {i : Instr} (h : i.opcode ≠ 0b001) : i.operand = 0 := by
  rw [← decodePorts_opcode_operand i, decodePorts_operand, if_neg h]

/-- Settles O5: an edge reads `din` through the decoder of the ports alone. -/
theorem onlyPushReadsDin : Obligations.OnlyPushReadsDin := by
  unfold Obligations.OnlyPushReadsDin
  refine ⟨fun op din din' rst s h => ?_, fun i h => ?_⟩
  · simp only [clockEdge, decodePorts_eq_zero_din h din, decodePorts_eq_zero_din h din']
  · rw [encode, Laws.OpcodeField.wordDin_append, operand_eq_zero h]

/-- A number that is the word of a command is decoded to that command. -/
theorem decodeTableWord_of_encode {i : Instr} {n : Nat} (h : (encode i).toNat = n) : decodeTableWord 91 n = some i := by
  have hn : n < 2 ^ 91 := h ▸ (encode i).isLt
  simp only [decodeTableWord, decodeNumber, Nat.mod_eq_of_lt hn, if_pos hn]
  rw [← h, BitVec.ofNat_toNat, BitVec.setWidth_eq, decode_encode]

/-- Settles O8: the bytes and the two values are computed, and the word decodes because it is the PUSH's encoding. -/
theorem workedEncoding : Obligations.WorkedEncoding :=
  ⟨by decide, by decide, by decide, decodeTableWord_of_encode (by decide)⟩

/-- Settles O9: each word is its command's encoding. -/
theorem sampleWordsDecode : Obligations.SampleWordsDecode := by
  unfold Obligations.SampleWordsDecode
  refine ⟨?_, ?_, ?_, ?_, ?_, ?_, ?_, ?_, encodeFrame_emptyFrame⟩ <;> exact decodeTableWord_of_encode (by decide)

end Sys2Proof.Machine
end

section
/-! The assembler's lines (R73): the values of literal operands, the cycle of a line, and what `REP` is short for. -/

namespace Sys2Proof.Machine

theorem asmValue_const (i : Option Nat) (limit n : Nat) :
    asmValue i limit (asmConst n) = if n < limit then some n else none := by
  cases i <;> rfl

theorem asmValue_const_of_lt (i : Option Nat) {limit n : Nat} (h : n < limit) :
    asmValue i limit (asmConst n) = some n := by
  rw [asmValue_const, if_pos h]

theorem asmBytes_const (i : Option Nat) (bs : List Byte) :
    asmBytes i (bs.map fun b => asmConst b.toNat) = some bs := by
  induction bs with
  | nil => rfl
  | cons b bs ih =>
    simp only [List.map_cons, asmBytes, asmValue_const_of_lt i b.isLt, ih, BitVec.ofNat_toNat, BitVec.setWidth_eq]

/-- Eight literal bytes denote the payload that holds them. -/
theorem asmPayload_const (i : Option Nat) (p : Vector Byte 8) :
    asmPayload i (some (p.toList.map fun b => asmConst b.toNat)) = some p := by
  have hp : p = #v[p[0], p[1], p[2], p[3], p[4], p[5], p[6], p[7]] := Vector.toList_inj.mp (payload_toList p)
  rw [asmPayload, asmBytes_const, payload_toList]
  exact congrArg some hp.symm

theorem asmFrame_const (i : Option Nat) (f : Frame) :
    asmFrame i (asmConst f.identifier.toNat) (some (f.payload.toList.map fun b => asmConst b.toNat))
      (some (asmConst f.port.toNat)) (some (asmConst f.length.toNat)) = some f := by
  simp only [asmFrame, asmOptional, asmPayload_const, asmValue_const_of_lt i f.identifier.isLt,
    asmValue_const_of_lt i f.port.isLt, asmValue_const_of_lt i f.length.isLt, BitVec.ofNat_toNat, BitVec.setWidth_eq]

/-- Every omitted operand is 0 (R73). -/
theorem asmFrame_omitted (i : Option Nat) (id : BitVec 16) :
    asmFrame i (asmConst id.toNat) none none none = some ⟨id, Vector.replicate 8 0, 0, 0⟩ := by
  simp only [asmFrame, asmPayload, asmOptional, asmValue_const_of_lt i id.isLt, BitVec.ofNat_toNat,
    BitVec.setWidth_eq]
  rfl

/-- An identifier out of its range leaves the line without a frame (R73). -/
theorem asmFrame_identifier_tooLarge (i : Option Nat) {n : Nat} (h : 65536 ≤ n) (d : Option (List AsmNumber))
    (p l : Option AsmNumber) : asmFrame i (asmConst n) d p l = none := by
  simp only [asmFrame, asmValue_const, if_neg (Nat.not_lt.mpr h)]

/-- The cycle of a command holds its opcode and its operand on the two ports (R60). -/
theorem commandCycle_eq (i : Instr) : commandCycle i = ⟨false, i.opcode, i.operand⟩ := by
  rw [commandCycle, wordCycle, encode, Laws.OpcodeField.wordOp_append, Laws.OpcodeField.wordDin_append]

/-- The cycle of a PUSH line whose operands denote a frame. -/
theorem assembleLine_push {i : Option Nat} {id : AsmNumber} {d : Option (List AsmNumber)} {p l : Option AsmNumber}
    {f : Frame} (h : asmFrame i id d p l = some f) :
    assembleLine i (.push id d p l) = some ⟨false, 0b001, encodeFrame f⟩ := by
  rw [assembleLine, h, Option.map_some, commandCycle_eq]
  rfl

/-- `REP` from any repetition number on: the cycles of its body for each repetition in order (R73). -/
theorem assembleRep_eq_flatMap {body : List AsmLine} {cs : Nat → List Cycle} : ∀ (k start : Nat),
    (∀ j, start ≤ j → j < start + k → assembleLines (some j) body = some (cs j)) →
      assembleRep body start k = some ((List.range' start k).flatMap cs)
  | 0, _, _ => rfl
  | k + 1, start, h => by
    have hrest := assembleRep_eq_flatMap k (start + 1) fun j hlo hhi => h j (by omega) (by omega)
    simp only [assembleRep, h start (by omega) (by omega), hrest, List.range'_succ, List.flatMap_cons]

/-- Settles O10: each line's cycle from its command's two ports, and `REP` from repetition 0 on. -/
theorem assemblerLines : Obligations.AssemblerLines := by
  unfold Obligations.AssemblerLines
  refine ⟨fun i => ?_, fun i f => ⟨assembleLine_push (asmFrame_const i f), assembleLine_push (asmFrame_omitted i _)⟩,
    fun i n d p l h => ?_, fun k body cs h => ?_⟩
  · simp only [assembleLine, commandCycle_eq]
    exact ⟨rfl, rfl, rfl, rfl, rfl, rfl, rfl⟩
  · rw [assembleLine, asmFrame_identifier_tooLarge i h, Option.map_none]
  · have hrep := assembleRep_eq_flatMap k 0 fun j _ hj => h j (by omega)
    simp only [assemble, hrep, List.append_nil, List.range_eq_range']

end Sys2Proof.Machine
end

section
/-! The sentinel that an empty POP drives (R68, R93). -/

namespace Sys2Proof.Machine

/-- Settles O37: the sentinel is encoded as 0, as is the oldest frame, while QEMPTY answers from the count. -/
theorem sentinelIsAmbiguous : Obligations.SentinelIsAmbiguous := by
  unfold Obligations.SentinelIsAmbiguous
  intro s s' hr hr' hempty hne hold
  have hdout : (effect .pop s).dout = (effect .pop s').dout := by
    rw [effect, effect, popEffect_empty hempty, popEffect_notEmpty hne, drive_dout, drive_dout,
      encodeFrame_emptyFrame, hold]
  refine ⟨_, _, _, _, exec_ready hr .pop, exec_ready hr' .pop, hdout, ?_, exec_ready hr .qempty,
    exec_ready hr' .qempty, (isEmpty_iff s).mpr hempty, ?_⟩
  · rw [effect, effect, popEffect_rbit, popEffect_rbit]
  · exact Bool.eq_false_iff.mpr fun h => hne ((isEmpty_iff s').mp h)

end Sys2Proof.Machine
end

section
/-! The occupancy queries (R80, R81, R100), and the bookkeeping of frames over a run without reset (R82, R87). -/

namespace Sys2Proof.Machine

/-- Settles O13: in a ready state each query has its effect, which only drives the ports. -/
theorem queriesAnswer : Obligations.QueriesAnswer := by
  unfold Obligations.QueriesAnswer
  intro s hr
  exact ⟨exec_ready hr .qempty, exec_ready hr .qfull, exec_ready hr .qlost⟩

/-- The frame that a PUSH stores is one more frame, or takes the place of the evicted one (R85). -/
theorem pushEffect_count_add {s : State} (hr : s.InRange) (b : Bus) :
    (pushEffect b s).count.toNat + (if isFull s then 1 else 0) = s.count.toNat + 1 := by
  obtain ⟨-, -, hc⟩ := (inRange_iff s).mp hr
  by_cases hf : s.count.toNat = 100
  · rw [if_pos ((isFull_iff s).mpr hf), pushEffect_count_of_full hf, hf]
  · rw [if_neg (mt (isFull_iff s).mp hf), pushEffect_notFull hf, insertNewest_count, count_add_one (by omega)]

/-- A POP takes one frame away, and none from an empty buffer (R90). -/
theorem popEffect_count_add (s : State) :
    (popEffect s).count.toNat + (if isEmpty s = false then 1 else 0) = s.count.toNat := by
  by_cases hf : s.count.toNat = 0
  · rw [(isEmpty_iff s).mpr hf, popEffect_empty hf, drive_count, if_neg (by decide), Nat.add_zero]
  · rw [Bool.eq_false_iff.mpr (mt (isEmpty_iff s).mp hf), popEffect_notEmpty hf, drive_count, removeOldest_count,
      count_sub_one hf, if_pos rfl]
    omega

/-- The frames that a command stores, removes and evicts, in balance with the count before and after (R82, R87). -/
theorem effect_count_balance (i : Instr) {s : State} (hr : s.InRange) :
    s.count.toNat + (if i.opcode = 0b001 then 1 else 0) =
      (effect i s).count.toNat + (if i.opcode = 0b010 ∧ isEmpty s = false then 1 else 0) +
        (if i.opcode = 0b001 ∧ isFull s = true then 1 else 0) := by
  cases i with
  | push f => simpa [Instr.opcode, effect] using (pushEffect_count_add hr (encodeFrame f)).symm
  | pop => simpa [Instr.opcode, effect] using (popEffect_count_add s).symm
  | nop | clrlost | qempty | qfull | qlost | reserved => rfl

/-- A step that completes with no reset is the effect of the next cycle's command. -/
theorem step_next_of_not_resets {s t : State} (hreset : resetsNext s = false) (h : step s = .next t) :
    ∃ c rest, s.inputs = c :: rest ∧ c.rst = false ∧ t = effect (decodePorts c.op c.din) { s with inputs := rest } := by
  obtain ⟨c, rest, hi, -, rfl⟩ := step_eq_next_iff.mp h
  rw [resetsNext_cons hi] at hreset
  exact ⟨c, rest, hi, hreset, cycleEffect_command hreset _⟩

/-- One cycle without reset leaves a ready state, with the frames of its command in balance. -/
theorem step_count_balance {s t : State} (hr : s.Ready) (hreset : resetsNext s = false) (h : step s = .next t) :
    t.Ready ∧ s.count.toNat + (if pushesNext s then 1 else 0) =
      t.count.toNat + (if removesNext s then 1 else 0) + (if overwritesNext s then 1 else 0) := by
  obtain ⟨c, rest, hi, hc, rfl⟩ := step_next_of_not_resets hreset h
  have hready : State.Ready { s with inputs := rest } := hr
  have hempty : isEmpty { s with inputs := rest } = isEmpty s := rfl
  have hbalance := effect_count_balance (decodePorts c.op c.din) hready.2
  rw [decodePorts_opcode, hempty] at hbalance
  refine ⟨effect_ready _ hready, ?_⟩
  simpa [pushesNext, removesNext, overwritesNext, presentsNext_cons hi, hc] using hbalance

/-- The count over `n + 1` cycles is that of the next one and of the `n` after it. -/
theorem countCycles_succ {s t : State} (h : step s = .next t) (p : State → Bool) (n : Nat) :
    countCycles p (n + 1) s = (if p s then 1 else 0) + countCycles p n t := by
  rw [countCycles, h]

/-- A run of `n + 1` cycles that completes has a first step. -/
theorem exists_step_of_run_succ {n : Nat} {s t : State} (h : run (n + 1) s = .next t) :
    ∃ u, step s = .next u ∧ run n u = .next t := by
  rw [run] at h
  split at h
  case h_1 u hstep => exact ⟨u, hstep, h⟩
  case h_2 | h_3 => cases h

/-- Any number of cycles without reset leaves a ready state, with the frames stored, removed and evicted in balance. -/
theorem run_count_balance : ∀ {n : Nat} {s t : State}, s.Ready →
    (∀ j < n, ∀ u, run j s = .next u → resetsNext u = false) → run n s = .next t →
      t.Ready ∧ s.count.toNat + countCycles pushesNext n s =
        t.count.toNat + countCycles removesNext n s + countCycles overwritesNext n s
  | 0, _, _, hr, _, h => by cases h; exact ⟨hr, rfl⟩
  | n + 1, s, t, hr, hreset, h => by
    obtain ⟨u, hstep, hrun⟩ := exists_step_of_run_succ h
    obtain ⟨hu, hfirst⟩ := step_count_balance hr (hreset 0 n.succ_pos s rfl) hstep
    obtain ⟨ht, hrest⟩ := run_count_balance hu
      (fun j hj v hv => hreset (j + 1) (Nat.succ_lt_succ hj) v ((run_succ hstep j).trans hv)) hrun
    simp only [countCycles_succ hstep]
    exact ⟨ht, by omega⟩

/-- Settles O46: from an empty buffer, the balance says that no frame is left exactly when all that were stored are gone. -/
theorem framesAreConserved : Obligations.FramesAreConserved := by
  unfold Obligations.FramesAreConserved
  intro s t n hr hreset h
  obtain ⟨ht, hbalance⟩ := run_count_balance hr hreset h
  refine ⟨hbalance, fun hempty => ⟨_, exec_ready ht .qempty, ?_⟩⟩
  rw [effect, drive_rbit, isEmpty_iff]
  omega

end Sys2Proof.Machine
end

section
/-! The frame transfers: what PUSH and POP leave (R85 to R92), and that in a ready state they always complete (R86). -/

namespace Sys2Proof.Machine

/-- Settles O16: the two cases of a POP; neither writes a slot. -/
theorem popReturnsOldest : Obligations.PopReturnsOldest := by
  unfold Obligations.PopReturnsOldest
  intro s hr
  refine ⟨_, exec_ready hr .pop, popEffect_rbit s, popEffect_tail s, popEffect_dataLost s, popEffect_mem s,
    fun hempty => ?_, fun hne => ?_⟩
  · rw [effect, popEffect_empty hempty]
    exact ⟨rfl, encodeFrame_emptyFrame, rfl, rfl⟩
  · rw [effect, popEffect_notEmpty hne]
    exact ⟨rfl, nextIndex_toNat s.head, count_sub_one hne⟩

/-- Settles O20: a POP that answers has its effect, which writes neither a slot nor these registers. -/
theorem popFrame : Obligations.PopFrame := by
  unfold Obligations.PopFrame
  intro s t h
  obtain ⟨rfl, -⟩ := exec_next h
  have hmem : (effect .pop s).mem = s.mem := popEffect_mem s
  exact ⟨popEffect_tail s, popEffect_dataLost s, popEffect_constructed s, popEffect_inputs s,
    fun a => by rw [hmem], fun i _ => by rw [hmem]⟩

/-- A PUSH writes the slot at `tail` and no other, whole (R85). -/
theorem effect_push_mem (f : Frame) (s : State) :
    (effect (.push f) s).mem = writeSlot s.mem s.tail.toNat (encodeFrame f) :=
  pushEffect_mem (encodeFrame f) s

theorem effect_push_tail (f : Frame) (s : State) : (effect (.push f) s).tail = nextIndex s.tail :=
  pushEffect_tail (encodeFrame f) s

/-- The eviction of a PUSH on a full buffer advances `head` (R85). -/
theorem effect_push_head_of_full {s : State} (hf : s.count.toNat = 100) (f : Frame) :
    (effect (.push f) s).head = nextIndex s.head := by
  rw [effect, pushEffect_full hf]
  rfl

/-- Without an eviction a PUSH moves neither `head` nor the flag (R85). -/
theorem effect_push_of_notFull {s : State} (hf : s.count.toNat ≠ 100) (f : Frame) :
    (effect (.push f) s).head = s.head ∧ (effect (.push f) s).count = s.count + 1 ∧
      (effect (.push f) s).dataLost = s.dataLost := by
  rw [effect, pushEffect_notFull hf]
  exact ⟨rfl, rfl, rfl⟩

/-- Settles O15: the slots after the one that is written, then the registers with and without an eviction. -/
theorem pushStoresFrame : Obligations.PushStoresFrame := by
  unfold Obligations.PushStoresFrame
  intro f s hr hm
  obtain ⟨-, htail, hcount⟩ := (inRange_iff s).mp hr.2
  have hread := readSlot_writeSlot hm htail (encodeFrame f)
  refine ⟨_, exec_ready hr (.push f), rfl, rfl, ?_, fun i _ hi => ?_, ?_, fun hfull => ?_, fun hroom => ?_⟩
  · rw [effect_push_mem, hread, if_pos rfl]
  · rw [effect_push_mem, hread, if_neg hi]
  · rw [effect_push_tail, nextIndex_toNat]
  · obtain ⟨hlost, hcount'⟩ := effect_push_of_full hfull f
    rw [effect_push_head_of_full hfull, nextIndex_toNat]
    exact ⟨rfl, hcount', hlost⟩
  · obtain ⟨hhead, hcount', hlost⟩ := effect_push_of_notFull hroom f
    exact ⟨hhead, by rw [hcount', count_add_one (by omega)], hlost⟩

/-- Settles O21: a PUSH that answers was ready, so the slot that it writes is a valid one. -/
theorem pushFrame : Obligations.PushFrame := by
  unfold Obligations.PushFrame
  intro f s t hm h
  obtain ⟨rfl, hnop | hr⟩ := exec_next h
  · cases hnop
  · obtain ⟨-, htail, -⟩ := hr.2
    refine ⟨effect_constructed _ s, effect_inputs _ s, fun hroom => ?_, fun a ha => ?_⟩
    · obtain ⟨hhead, -, hlost⟩ := effect_push_of_notFull hroom f
      exact ⟨hhead, hlost⟩
    · rw [effect_push_mem, read_writeSlot_outside hm htail (encodeFrame f) ha]

theorem effect_dout_of_not_pop {i : Instr} (h : i.opcode ≠ 0b010) (s : State) : (effect i s).dout = 0 := by
  cases i with
  | pop => exact absurd rfl h
  | nop | push | clrlost | qempty | qfull | qlost | reserved => rfl

theorem effect_rbit_of_not_query {i : Instr} (hempty : i.opcode ≠ 0b100) (hfull : i.opcode ≠ 0b101)
    (hlost : i.opcode ≠ 0b110) (s : State) : (effect i s).rbit = false := by
  cases i with
  | pop => exact popEffect_rbit s
  | qempty => exact absurd rfl hempty
  | qfull => exact absurd rfl hfull
  | qlost => exact absurd rfl hlost
  | nop | push | clrlost | reserved => rfl

/-- Settles O33: a reset cycle drives zeros, and a command's outputs are read off its opcode. -/
theorem outputsZeroUnlessDriven : Obligations.OutputsZeroUnlessDriven := by
  unfold Obligations.OutputsZeroUnlessDriven
  intro s t h
  obtain ⟨c, rest, hi, -, rfl⟩ := step_eq_next_iff.mp h
  simp only [presentsNext_cons hi]
  cases hrst : c.rst with
  | true =>
    rw [cycleEffect, if_pos hrst]
    exact ⟨fun _ => rfl, fun _ _ _ => rfl⟩
  | false =>
    rw [cycleEffect_command hrst]
    simp only [Bool.not_false, Bool.true_and, beq_eq_false_iff_ne]
    have hop := decodePorts_opcode c.op c.din
    exact ⟨fun hpop => effect_dout_of_not_pop (hop.trans_ne hpop) _, fun hempty hfull hlost =>
      effect_rbit_of_not_query (hop.trans_ne hempty) (hop.trans_ne hfull) (hop.trans_ne hlost) _⟩

/-- Every cycle of a ready state leaves a ready state; `tail` need not be aligned for this. -/
theorem cycleEffect_ready {s : State} (h : s.Ready) (c : Cycle) : (cycleEffect c s).Ready := by
  unfold cycleEffect
  split
  · exact ⟨resetEdge_constructed s, (resetEdge_ring s).1⟩
  · exact effect_ready _ h

/-- Settles O24, by induction on the number of cycles: each one completes and leaves a ready state. -/
theorem everyCycleCompletes : Obligations.EveryCycleCompletes := by
  unfold Obligations.EveryCycleCompletes
  intro s n
  induction n generalizing s with
  | zero => exact fun hr _ => ⟨s, rfl, hr, rfl⟩
  | succ n ih =>
    intro hr hn
    cases hi : s.inputs with
    | nil => simp [hi] at hn
    | cons c rest =>
      have hinputs : (cycleEffect c { s with inputs := rest }).inputs = rest := cycleEffect_inputs c _
      have hlen : n ≤ rest.length := by simpa [hi] using hn
      obtain ⟨t, hrun, ht, hdrop⟩ :=
        ih _ (cycleEffect_ready (s := { s with inputs := rest }) hr c) (hinputs.symm ▸ hlen)
      exact ⟨t, (run_succ (step_ready hr hi) n).trans hrun, ht, by rw [hdrop, hinputs, List.drop_succ_cons]⟩

end Sys2Proof.Machine
end

section
/-! PUSHes and POPs of the bounded queue in a row: the queue that they leave and the outputs that they show (R88, R90). -/

namespace Sys2Proof.Machine

/-- The queue that a list of cycles leaves. -/
def Fifo.after (q : Fifo) (cs : List Cycle) : Fifo :=
  cs.foldl (fun q c => (q.cycle c).1) q

@[simp] theorem Fifo.after_nil (q : Fifo) : q.after [] = q := rfl

theorem Fifo.after_cons (q : Fifo) (c : Cycle) (cs : List Cycle) : q.after (c :: cs) = (q.cycle c).1.after cs := rfl

theorem Fifo.after_append (q : Fifo) (cs ds : List Cycle) : q.after (cs ++ ds) = (q.after cs).after ds :=
  List.foldl_append

theorem Fifo.observe_append (q : Fifo) (cs ds : List Cycle) :
    q.observe (cs ++ ds) = q.observe cs ++ (q.after cs).observe ds := by
  induction cs generalizing q with
  | nil => rfl
  | cons c cs ih => rw [List.cons_append, Fifo.observe, ih, ← Fifo.after_cons, Fifo.observe, List.cons_append]

/-- The cycle that the assembler writes for a command is that command's (R73). -/
theorem Fifo.cycle_commandCycle (q : Fifo) (i : Instr) : q.cycle (commandCycle i) = q.command i := by
  rw [commandCycle_eq, Fifo.cycle, if_neg Bool.false_ne_true, decodePorts_opcode_operand]

theorem Fifo.append_of_room {q : Fifo} (hq : q.frames.length < 100) (b : Bus) :
    q.append b = ⟨q.frames ++ [b], q.lost⟩ :=
  if_neg hq.ne

/-- A full queue drops its oldest frame for the new one (R88). -/
theorem Fifo.append_cons_of_full {b : Bus} {bs : List Bus} (hq : bs.length = 99) (l : Bool) (b' : Bus) :
    Fifo.append b' ⟨b :: bs, l⟩ = ⟨bs ++ [b'], true⟩ :=
  if_pos (congrArg Nat.succ hq)

/-- PUSHes in a row leave the last 100 frames in push order, and the flag set where a frame had to go (R88, R89). -/
theorem Fifo.after_pushes {q : Fifo} (hq : q.frames.length ≤ 100) (fs : List Frame) :
    q.after (fs.map fun f => commandCycle (.push f)) =
      ⟨(q.frames ++ fs.map encodeFrame).drop (q.frames.length + fs.length - 100),
        q.lost || decide (100 < q.frames.length + fs.length)⟩ := by
  induction fs generalizing q with
  | nil => simp [hq, hq.not_gt]
  | cons f fs ih =>
    rw [List.map_cons, Fifo.after_cons, Fifo.cycle_commandCycle, Fifo.command]
    obtain hroom | hfull := hq.lt_or_eq
    · rw [Fifo.append_of_room hroom, ih (by simpa using hroom)]
      simp [Nat.add_assoc, Nat.add_comm 1]
    · obtain ⟨_ | ⟨b, bs⟩, l⟩ := q
      · cases hfull
      · have hbs : bs.length = 99 := Nat.succ.inj hfull
        rw [Fifo.append_cons_of_full hbs, ih (by simp [hbs])]
        have hdrop : 100 + fs.length - 99 = fs.length + 1 := by omega
        simp [hbs, ← Nat.add_assoc, hdrop]

/-- A PUSH drives zeros (R92). -/
theorem Fifo.observe_pushes (q : Fifo) (fs : List Frame) :
    q.observe (fs.map fun f => commandCycle (.push f)) = List.replicate fs.length ⟨0, false⟩ := by
  induction fs generalizing q with
  | nil => rfl
  | cons f fs ih =>
    rw [List.map_cons, Fifo.observe, Fifo.cycle_commandCycle, ih, List.length_cons, List.replicate_succ]
    rfl

theorem Fifo.command_pop_cons (b : Bus) (bs : List Bus) (l : Bool) :
    Fifo.command ⟨b :: bs, l⟩ .pop = (⟨bs, l⟩, ⟨b, false⟩) := rfl

/-- POPs in a row take away the oldest frames (R90). -/
theorem Fifo.after_pops {n : Nat} {bs : List Bus} (hn : n ≤ bs.length) (l : Bool) :
    Fifo.after ⟨bs, l⟩ (List.replicate n (commandCycle .pop)) = ⟨bs.drop n, l⟩ := by
  induction bs generalizing n with
  | nil => obtain rfl := Nat.le_zero.mp hn; rfl
  | cons b bs ih =>
    cases n with
    | zero => rfl
    | succ n =>
      rw [List.replicate_succ, Fifo.after_cons, Fifo.cycle_commandCycle, Fifo.command_pop_cons,
        ih (Nat.le_of_succ_le_succ hn), List.drop_succ_cons]

/-- POPs in a row show the oldest frames in order (R90, R94). -/
theorem Fifo.observe_pops {n : Nat} {bs : List Bus} (hn : n ≤ bs.length) (l : Bool) :
    Fifo.observe ⟨bs, l⟩ (List.replicate n (commandCycle .pop)) = (bs.take n).map fun b => ⟨b, false⟩ := by
  induction bs generalizing n with
  | nil => obtain rfl := Nat.le_zero.mp hn; rfl
  | cons b bs ih =>
    cases n with
    | zero => rfl
    | succ n =>
      rw [List.replicate_succ, Fifo.observe, Fifo.cycle_commandCycle, Fifo.command_pop_cons,
        ih (Nat.le_of_succ_le_succ hn), List.take_succ_cons, List.map_cons]

/-- While there is room, PUSHes in a row append their frames and leave the flag (R87). -/
theorem Fifo.after_pushes_of_room {bs : List Bus} {fs : List Frame} (h : bs.length + fs.length ≤ 100) (l : Bool) :
    Fifo.after ⟨bs, l⟩ (fs.map fun f => commandCycle (.push f)) = ⟨bs ++ fs.map encodeFrame, l⟩ := by
  rw [Fifo.after_pushes (Nat.le_of_add_right_le h)]
  simp [Nat.sub_eq_zero_of_le h, h.not_gt]

/-- Up to 100 frames, pushed into the empty queue and popped: none is left, and they come back in push order (R94). -/
theorem Fifo.pushes_then_pops {fs : List Frame} (h : fs.length ≤ 100) :
    Fifo.after ⟨[], false⟩ (fs.map (fun f => commandCycle (.push f)) ++ List.replicate fs.length (commandCycle .pop)) =
        ⟨[], false⟩ ∧
      Fifo.observe ⟨[], false⟩
          (fs.map (fun f => commandCycle (.push f)) ++ List.replicate fs.length (commandCycle .pop)) =
        List.replicate fs.length ⟨0, false⟩ ++ fs.map fun f => ⟨encodeFrame f, false⟩ := by
  have hroom : ([] : List Bus).length + fs.length ≤ 100 := by simpa using h
  have hpops : fs.length ≤ ([] ++ fs.map encodeFrame).length := by simp
  constructor
  · rw [Fifo.after_append, Fifo.after_pushes_of_room hroom, Fifo.after_pops hpops]
    simp
  · rw [Fifo.observe_append, Fifo.after_pushes_of_room hroom, Fifo.observe_pushes, Fifo.observe_pops hpops]
    simp [List.take_of_length_le, Function.comp_def]

/-- After 101 PUSHes the first frame is gone, so the POP shows the second one (R88, R94). -/
theorem Fifo.observe_pop_of_101_pushes {fs : List Frame} (h : fs.length = 101) :
    (Fifo.observe ⟨[], false⟩ (fs.map (fun f => commandCycle (.push f)) ++ [commandCycle .pop]))[101]? =
      fs[1]?.map fun f => ⟨encodeFrame f, false⟩ := by
  have hafter : Fifo.after ⟨[], false⟩ (fs.map fun f => commandCycle (.push f)) =
      ⟨(fs.map encodeFrame).drop 1, true⟩ := by
    rw [Fifo.after_pushes (Nat.zero_le _)]
    simp [h]
  have hpop : Fifo.observe ⟨(fs.map encodeFrame).drop 1, true⟩ [commandCycle .pop] = _ :=
    Fifo.observe_pops (n := 1) (by simp [h]) true
  rw [Fifo.observe_append, Fifo.observe_pushes, hafter, hpop, List.getElem?_append_right (by simp [h])]
  simp [h]

/-- The queue is filled again after some of its frames were popped: all frames come back in push order (R94). -/
theorem Fifo.observe_refilled {as bs cs : List Frame} (hfill : as.length + bs.length ≤ 100)
    (hrefill : bs.length + cs.length ≤ 100) :
    Fifo.observe ⟨[], false⟩
        ((as ++ bs).map (fun f => commandCycle (.push f)) ++ List.replicate as.length (commandCycle .pop) ++
          cs.map (fun f => commandCycle (.push f)) ++ List.replicate (bs ++ cs).length (commandCycle .pop)) =
      List.replicate (as ++ bs).length ⟨0, false⟩ ++ as.map (fun f => ⟨encodeFrame f, false⟩) ++
        List.replicate cs.length ⟨0, false⟩ ++ (bs ++ cs).map fun f => ⟨encodeFrame f, false⟩ := by
  have hfirst := Fifo.after_pushes_of_room (bs := []) (fs := as ++ bs) (by simpa using hfill) false
  have hpopped : ([] ++ (as ++ bs).map encodeFrame).drop as.length = bs.map encodeFrame := by simp
  have hsecond := Fifo.after_pushes_of_room (bs := bs.map encodeFrame) (by simpa using hrefill) false
  simp only [Fifo.observe_append, Fifo.after_append, hfirst, Fifo.observe_pushes]
  rw [Fifo.after_pops (by simp), hpopped, Fifo.observe_pops (by simp), hsecond, Fifo.observe_pops (by simp)]
  simp [List.take_of_length_le, Function.comp_def]

end Sys2Proof.Machine
end

section
/-! Runs from reset (R89, R94): they leave the queue that the bounded queue's cycles leave. -/

namespace Sys2Proof.Machine

/-- A run of all presented cycles leaves the bounded queue's frames and flag, in a ready state that meets the invariant. -/
theorem run_toFifo : ∀ (cs : List Cycle) {s : State}, s.Inv → s.Ready → s.inputs = cs →
    ∃ t, run cs.length s = .next t ∧ t.Inv ∧ t.Ready ∧ t.toFifo = s.toFifo.after cs
  | [], s, hinv, hr, _ => ⟨s, rfl, hinv, hr, rfl⟩
  | c :: rest, s, hinv, hr, hi => by
    obtain ⟨hinv', hr'⟩ := cycleEffect_inv_ready (s := { s with inputs := rest }) hinv hr c
    have hfifo : s.toFifo.cycle c = _ := toFifo_cycle (s := { s with inputs := rest }) hinv hr c
    obtain ⟨t, hrun, ht⟩ := run_toFifo rest hinv' hr' (cycleEffect_inputs c _)
    refine ⟨t, (run_succ (step_ready hr hi) rest.length).trans hrun, ?_⟩
    rwa [Fifo.after_cons, hfifo]

/-- Right after a reset edge the machine is ready and meets the invariant, whatever cycles are presented next. -/
theorem resetEdge_withInputs_inv_ready {s : State} (hm : s.mem.wf = true) (cs : List Cycle) :
    State.Inv { resetEdge s with inputs := cs } ∧ State.Ready { resetEdge s with inputs := cs } :=
  ⟨⟨hm, fun _ => resetEdge_ring s⟩, resetEdge_constructed s, (resetEdge_ring s).1⟩

/-- A run from reset leaves what the cycles leave of the empty queue. -/
theorem run_reset_toFifo {s : State} (hm : s.mem.wf = true) (cs : List Cycle) :
    ∃ t, run cs.length { resetEdge s with inputs := cs } = .next t ∧ t.Inv ∧ t.Ready ∧
      t.toFifo = Fifo.after ⟨[], false⟩ cs := by
  obtain ⟨hinv, hr⟩ := resetEdge_withInputs_inv_ready hm cs
  exact run_toFifo cs hinv hr rfl

/-- From reset the host observes what the empty queue shows. -/
theorem observe_reset {s : State} (hm : s.mem.wf = true) (cs : List Cycle) :
    observe cs.length { resetEdge s with inputs := cs } = Fifo.observe ⟨[], false⟩ cs := by
  obtain ⟨hinv, hr⟩ := resetEdge_withInputs_inv_ready hm cs
  exact observe_eq_toFifo_observe cs hinv hr rfl

/-- A step on a command's cycle that completes has the command's effect. -/
theorem step_commandCycle_next {s t : State} {i : Instr} {rest : List Cycle} (hi : s.inputs = commandCycle i :: rest)
    (h : step s = .next t) : t = effect i { s with inputs := rest } := by
  rw [commandCycle_eq] at hi
  rw [step_command hi rfl, decodePorts_opcode_operand] at h
  exact (exec_next h).1

/-- PUSHes in a row advance `tail` once each, modulo 100 (R43, R85). -/
theorem run_pushes_tail : ∀ (fs : List Frame) {s t : State}, s.inputs = (fs.map fun f => commandCycle (.push f)) →
    run fs.length s = .next t → t.tail.toNat ≡ s.tail.toNat + fs.length [MOD 100]
  | [], _, _, _, h => by cases h; rfl
  | f :: fs, s, t, hi, h => by
    obtain ⟨u, hstep, hrun⟩ := exists_step_of_run_succ h
    obtain rfl := step_commandCycle_next hi hstep
    have hrest := run_pushes_tail fs (effect_inputs _ _) hrun
    rw [effect_push_tail, nextIndex_toNat] at hrest
    simp only [Nat.ModEq, List.length_cons] at hrest ⊢
    omega

/-- In a ring, `tail` and the number of frames fix `head` (R32). -/
theorem State.Ring.head_toNat {s : State} (h : s.Ring) : s.head.toNat = (s.tail.toNat + 100 - s.count.toNat) % 100 := by
  obtain ⟨⟨hh, -, hc⟩, hg⟩ := h
  simp only [State.RingAligned, cap_eq] at hh hc hg
  omega

/-- Settles O47: the queue of the last 100 frames; `tail` counts the PUSHes, and the ring fixes `head`. -/
theorem pushesFromReset : Obligations.PushesFromReset := by
  unfold Obligations.PushesFromReset
  intro s fs hm
  obtain ⟨t, hrun, hinv, hr, hfifo⟩ := run_reset_toFifo hm (fs.map fun f => commandCycle (.push f))
  rw [List.length_map] at hrun
  rw [Fifo.after_pushes (Nat.zero_le _)] at hfifo
  obtain ⟨hcontents, hlost⟩ := Fifo.mk.inj hfifo
  obtain ⟨-, hring⟩ := (inv_iff_of_ready hr).mp hinv
  have hcount : t.count.toNat = min fs.length 100 := by
    rw [← contents_length, hcontents]
    simp only [List.nil_append, List.length_nil, List.length_drop, List.length_map]
    omega
  have htail : t.tail.toNat = fs.length % 100 := by
    have hmod := run_pushes_tail fs rfl hrun
    obtain ⟨-, hlt, -⟩ := hring.1
    rw [← Nat.mod_eq_of_lt hlt]
    simpa [Nat.ModEq] using hmod
  refine ⟨t, hrun, hcount, by simp [hlost], by simpa [List.map_drop] using hcontents, ?_, htail⟩
  rw [hring.head_toNat, hcount, htail]
  omega

/-- Settles O48: the host observes what the bounded queue shows, and each list of cycles is its PUSHes and POPs in a row. -/
theorem popsReturnPushOrder : Obligations.PopsReturnPushOrder := by
  unfold Obligations.PopsReturnPushOrder
  intro s fs hm
  refine ⟨fun hlt => ?_, fun h101 => ?_, fun h150 => ?_⟩
  · obtain ⟨hafter, hshows⟩ := Fifo.pushes_then_pops hlt.le
    have hlen : (fs.map (fun f => commandCycle (.push f)) ++ List.replicate fs.length (commandCycle .pop)).length =
        2 * fs.length := by simp [Nat.two_mul]
    rw [← hlen, observe_reset hm]
    obtain ⟨t, hrun, -, -, hfifo⟩ := run_reset_toFifo hm
      (fs.map (fun f => commandCycle (.push f)) ++ List.replicate fs.length (commandCycle .pop))
    obtain ⟨hcontents, hlost⟩ := Fifo.mk.inj (hfifo.trans hafter)
    exact ⟨⟨t, hrun, hlost, by rw [← contents_length, hcontents, List.length_nil]⟩, hshows⟩
  · rw [← Fifo.observe_pop_of_101_pushes h101, ← observe_reset hm]
    simp [h101]
  · obtain ⟨as, bs, cs, rfl, ha, hb, hc⟩ : ∃ as bs cs : List Frame,
        fs = as ++ (bs ++ cs) ∧ as.length = 50 ∧ bs.length = 50 ∧ cs.length = 50 :=
      ⟨fs.take 50, (fs.drop 50).take 50, (fs.drop 50).drop 50, by rw [List.take_append_drop, List.take_append_drop],
        by simp [h150], by simp [h150], by simp [h150]⟩
    have hshows := Fifo.observe_refilled (as := as) (bs := bs) (cs := cs) (by omega) (by omega)
    rw [← observe_reset hm] at hshows
    have htake : (as ++ (bs ++ cs)).take 100 = as ++ bs := by simp [List.take_append, ha, hb]
    have hdrop : (as ++ (bs ++ cs)).drop 100 = cs := by simp [List.drop_append, ha, hb]
    rw [htake, hdrop, List.take_left' ha, List.drop_left' ha]
    simpa only [List.length_append, List.length_map, List.length_replicate, ha, hb, hc] using hshows

end Sys2Proof.Machine
end

section
/-! The loss flag: what CLRLOST leaves (R101), and the only writers of `data_lost` (R102). -/

namespace Sys2Proof.Machine

/-- Settles O31: the flag after a step is that of the reset edge, or what the presented command leaves in it. -/
theorem dataLostWriters : Obligations.DataLostWriters := by
  unfold Obligations.DataLostWriters
  intro s t h
  exact step_dataLost h

/-- Settles O14: in a ready state CLRLOST has its effect, the flag cleared and both ports driven with zeros. -/
theorem clrlostClearsFlag : Obligations.ClrlostClearsFlag := by
  unfold Obligations.ClrlostClearsFlag
  intro s hr
  exact exec_ready hr .clrlost

/-- Settles O19: a CLRLOST that answers clears the flag and drives the ports, and neither writes a slot or another register. -/
theorem clrlostFrame : Obligations.ClrlostFrame := by
  unfold Obligations.ClrlostFrame
  intro s t h
  obtain ⟨rfl, -⟩ := exec_next h
  rw [effect_clrlost]
  exact ⟨rfl, rfl, rfl, rfl, rfl, fun _ => rfl⟩

end Sys2Proof.Machine
end

section
/-! The two commands without an effect on the buffer: NOP and the reserved opcode (R105, R106). -/

namespace Sys2Proof.Machine

theorem effect_nop (s : State) : effect .nop s = drive 0 false s := rfl

/-- With `reservedOp = nop` the reserved opcode has the effect of NOP (R106). -/
theorem effect_reserved (s : State) : effect .reserved s = effect .nop s := rfl

/-- With `reservedOp = refuse` the run is refused without a look at the state (R106). -/
theorem reservedUnder_refuse (s : State) : reservedUnder .refuse s = .refused .reservedOpcode := rfl

/-- Settles O11: NOP answers in every state, and its effect only drives both ports with zeros. -/
theorem nopDoesNothing : Obligations.NopDoesNothing := by
  unfold Obligations.NopDoesNothing
  intro s
  rw [exec_nop, effect_nop, drive]

/-- Settles O12: in a ready state the reserved opcode has its effect, that of NOP; the other setting refuses at once. -/
theorem reservedActsAsNop : Obligations.ReservedActsAsNop := by
  unfold Obligations.ReservedActsAsNop
  refine ⟨fun s hr => ?_, reservedUnder_refuse⟩
  rw [exec_ready hr, effect_reserved, effect_nop, drive]

end Sys2Proof.Machine
end

section
/-! Reset cycles (R125, R128, R129) and the host's boot duty before the first of them (R130, R131). -/

namespace Sys2Proof.Machine

/-- A step whose next cycle has `rst = 1` is the reset edge, in every state (R125). -/
theorem step_reset {s : State} {c : Cycle} {rest : List Cycle} (hi : s.inputs = c :: rest) (hc : c.rst = true) :
    step s = .next (resetEdge { s with inputs := rest }) := by
  rw [step_cons hi, clockEdge, if_pos hc]

theorem resetEdge_ready (s : State) : (resetEdge s).Ready :=
  ⟨resetEdge_constructed s, (resetEdge_ring s).1⟩

/-- Settles O28: the step is the reset edge, which writes the registers and the ports and no slot. -/
theorem resetCycleResets : Obligations.ResetCycleResets := by
  unfold Obligations.ResetCycleResets
  intro s c rest hi hc
  exact ⟨_, step_reset hi hc, rfl, rfl, rfl, rfl, rfl, rfl, rfl, rfl, contents_resetEdge _, fun _ => rfl, fun _ _ => rfl⟩

/-- Further reset cycles right after a reset edge only take their inputs (R129). -/
theorem run_resetEdge_of_held (s : State) (rest : List Cycle) : ∀ {cs : List Cycle}, (∀ d ∈ cs, d.rst = true) →
    run cs.length (resetEdge { s with inputs := cs ++ rest }) = .next (resetEdge { s with inputs := rest })
  | [], _ => rfl
  | d :: cs, h => by
    obtain ⟨hd, hcs⟩ := List.forall_mem_cons.mp h
    have hstep : step (resetEdge { s with inputs := d :: cs ++ rest }) =
        .next (resetEdge { s with inputs := cs ++ rest }) := step_reset rfl hd
    rw [List.length_cons, run_succ hstep, run_resetEdge_of_held s rest hcs]

/-- Settles O29: the first reset cycle is a reset edge, and the further ones leave its state. -/
theorem heldResetIsOneReset : Obligations.HeldResetIsOneReset := by
  unfold Obligations.HeldResetIsOneReset
  intro s cs rest c hcs hc
  rw [run_succ (step_reset rfl hc), run_succ (step_reset rfl hc)]
  exact run_resetEdge_of_held s rest hcs

theorem decodePorts_eq_nop_iff {op : Opcode} {din : Bus} : decodePorts op din = .nop ↔ op = 0b000 := by
  constructor
  · intro h
    rw [← decodePorts_opcode op din, h]
    rfl
  · rintro rfl
    rfl

/-- Before the first reset only a reset and a NOP complete (R131). -/
theorem Cycle.completesIn_iff_of_unconstructed {c : Cycle} {s : State} (hs : s.constructed = false) :
    c.CompletesIn s ↔ c.rst = true ∨ c.op = 0b000 := by
  have hready : ¬ s.Ready := fun hr => Bool.false_ne_true (hs.symm.trans hr.1)
  rw [Cycle.CompletesIn, decodePorts_eq_nop_iff, or_iff_left hready]

/-- A run of `n + 1` cycles completes exactly when its first cycle does and the `n` after it do. -/
theorem exists_run_succ_iff {s : State} {c : Cycle} {rest : List Cycle} (hi : s.inputs = c :: rest) (n : Nat) :
    (∃ t, run (n + 1) s = .next t) ↔
      c.CompletesIn s ∧ ∃ t, run n (cycleEffect c { s with inputs := rest }) = .next t := by
  constructor
  · rintro ⟨t, h⟩
    obtain ⟨u, hstep, hrun⟩ := exists_step_of_run_succ h
    rw [step_cons hi, clockEdge_eq_next_iff] at hstep
    obtain ⟨hc, rfl⟩ := hstep
    exact ⟨hc, t, hrun⟩
  · rintro ⟨hc, t, hrun⟩
    have hstep := step_eq_next_iff.mpr ⟨c, rest, hi, hc, rfl⟩
    exact ⟨t, (run_succ hstep n).trans hrun⟩

/-- `BootDutyIsExact` with the list of cycles as a variable of its own, for the induction over it: a NOP leaves the machine
before its first reset, and a reset leaves it ready for every cycle. -/
theorem exists_run_iff_bootOk : ∀ (cs : List Cycle) {s : State}, s.constructed = false → s.inputs = cs →
    ((∃ t, run cs.length s = .next t) ↔ bootOk cs = true)
  | [], s, _, _ => iff_of_true ⟨s, rfl⟩ rfl
  | c :: rest, s, hs, hi => by
    have hinputs : (cycleEffect c { s with inputs := rest }).inputs = rest := cycleEffect_inputs c _
    rw [List.length_cons, exists_run_succ_iff hi, Cycle.completesIn_iff_of_unconstructed hs, bootOk]
    cases hc : c.rst with
    | true =>
      have hready : (cycleEffect c { s with inputs := rest }).Ready := by
        rw [cycleEffect, if_pos hc]
        exact resetEdge_ready _
      obtain ⟨t, hrun, -⟩ := everyCycleCompletes _ rest.length hready (by rw [hinputs])
      exact iff_of_true ⟨.inl rfl, t, hrun⟩ rfl
    | false =>
      have hbefore : (cycleEffect c { s with inputs := rest }).constructed = false := by
        rw [cycleEffect_constructed_eq, hc, hs, Bool.or_self]
      simp [exists_run_iff_bootOk rest hbefore hinputs]

/-- Settles O27, by induction over the presented cycles, of which the first reset ends the duty. -/
theorem bootDutyIsExact : Obligations.BootDutyIsExact := by
  unfold Obligations.BootDutyIsExact
  intro s hs
  exact exists_run_iff_bootOk s.inputs hs rfl

end Sys2Proof.Machine
end
